-- ==== Sys2Proof/Word.lean ====
section
/-! DEFINITION. The widths of the machine: bytes, words, register selectors, 12-bit addresses (00_scope.md R4, R7). -/

namespace Sys2Proof

/-- An 8-bit value: a general register, a timer, a memory cell (R4, R21). -/
abbrev Byte := BitVec 8

/-- A 16-bit value: `I`, `PC`, a stack entry, an instruction word (R4, R21, R60). -/
abbrev Word := BitVec 16

/-- A 4-bit field: a register selector `X` or `Y`, the row count `N`, a key code (R61, R17). -/
abbrev Nibble := BitVec 4

/-- A register selector; every value names one of the sixteen registers (R11). -/
abbrev Reg := Nibble

/-- The 12-bit immediate `NNN` (R61). -/
abbrev Addr12 := BitVec 12

/-- Register 15, `VF`, the carry, borrow and collision flag (R12). -/
abbrev vF : Reg := 15#4

end Sys2Proof
end

