-- ==== Sys2Proof/Syntax.lean ====
section
/-! DEFINITION. The closed set of 34 instructions (30_encoding.md R66), one constructor per row of the opcode table. -/

namespace Sys2Proof

/-- An instruction with its operand fields (R61, R63, R64). A field named `ign` holds bits that the decoder ignores
(R69); `y` of `shr` and `shl` is encoded but is no operand (R108, R110). They are kept so that no bit of a word is lost;
no meaning reads them. -/
inductive Instr where
  /-- `CLS`, 0-E0 (R130). -/
  | cls (ign : Nibble)
  /-- `RET`, 0-EE (R81). -/
  | ret (ign : Nibble)
  /-- `JP NNN`, 1NNN (R80). -/
  | jp (nnn : Addr12)
  /-- `CALL NNN`, 2NNN (R82). -/
  | call (nnn : Addr12)
  /-- `SE Vx, NN`, 3XNN (R84). -/
  | seImm (x : Reg) (nn : Byte)
  /-- `SNE Vx, NN`, 4XNN (R85). -/
  | sneImm (x : Reg) (nn : Byte)
  /-- `SE Vx, Vy`, 5XY- (R86). -/
  | seReg (x y : Reg) (ign : Nibble)
  /-- `LD Vx, NN`, 6XNN (R101). -/
  | ldImm (x : Reg) (nn : Byte)
  /-- `ADD Vx, NN`, 7XNN (R102). -/
  | addImm (x : Reg) (nn : Byte)
  /-- `LD Vx, Vy`, 8XY0 (R103). -/
  | ldReg (x y : Reg)
  /-- `OR Vx, Vy`, 8XY1 (R104). -/
  | orReg (x y : Reg)
  /-- `AND Vx, Vy`, 8XY2 (R105). -/
  | andReg (x y : Reg)
  /-- `XOR Vx, Vy`, 8XY3 (R106). -/
  | xorReg (x y : Reg)
  /-- `ADD Vx, Vy`, 8XY4 (R107). -/
  | addReg (x y : Reg)
  /-- `SUB Vx, Vy`, 8XY5 (R109). -/
  | subReg (x y : Reg)
  /-- `SHR Vx`, 8XY6 (R108). -/
  | shr (x y : Reg)
  /-- `SUBN Vx, Vy`, 8XY7 (R111). -/
  | subnReg (x y : Reg)
  /-- `SHL Vx`, 8XYE (R110). -/
  | shl (x y : Reg)
  /-- `SNE Vx, Vy`, 9XY- (R87). -/
  | sneReg (x y : Reg) (ign : Nibble)
  /-- `LD I, NNN`, ANNN (R120). -/
  | ldI (nnn : Addr12)
  /-- `JP V0, NNN`, BNNN (R83). -/
  | jpV0 (nnn : Addr12)
  /-- `RND Vx, NN`, CXNN (R113). -/
  | rnd (x : Reg) (nn : Byte)
  /-- `DRW Vx, Vy, N`, DXYN (R132). -/
  | drw (x y : Reg) (n : Nibble)
  /-- `SKP Vx`, EX9E (R141). -/
  | skp (x : Reg)
  /-- `SKNP Vx`, EXA1 (R142). -/
  | sknp (x : Reg)
  /-- `LD Vx, DT`, FX07 (R150). -/
  | ldVxDt (x : Reg)
  /-- `LD Vx, K`, FX0A (R143). -/
  | ldVxK (x : Reg)
  /-- `LD DT, Vx`, FX15 (R151). -/
  | ldDtVx (x : Reg)
  /-- `LD ST, Vx`, FX18 (R152). -/
  | ldStVx (x : Reg)
  /-- `ADD I, Vx`, FX1E (R121). -/
  | addI (x : Reg)
  /-- `LD F, Vx`, FX29 (R122). -/
  | ldF (x : Reg)
  /-- `LD B, Vx`, FX33 (R123). -/
  | ldB (x : Reg)
  /-- `LD [I], Vx`, FX55 (R124). -/
  | stRegs (x : Reg)
  /-- `LD Vx, [I]`, FX65 (R125). -/
  | ldRegs (x : Reg)
  deriving DecidableEq, Repr

end Sys2Proof
end

