-- ==== Sys2Proof/WellFormed.lean ====
section
/-! DEFINITION. The canonical instructions: those whose ignored bits are zero, the ones an assembler must emit (R69). -/

namespace Sys2Proof

/-- An instruction is well formed when its encoding is canonical: "the canonical encodings, which an assembler must emit,
have these bits zero: 0x00E0, 0x00EE, 5XY0, 9XY0, 8X06, 8X0E" (R69). Every other field has exactly the width of its
operand, so no value of it is out of range (R11, R64). The machine runs the other forms too (R69). -/
def Instr.wellFormed : Instr → Bool
  | .cls ign => ign == 0#4
  | .ret ign => ign == 0#4
  | .jp _ => true
  | .call _ => true
  | .seImm _ _ => true
  | .sneImm _ _ => true
  | .seReg _ _ ign => ign == 0#4
  | .ldImm _ _ => true
  | .addImm _ _ => true
  | .ldReg _ _ => true
  | .orReg _ _ => true
  | .andReg _ _ => true
  | .xorReg _ _ => true
  | .addReg _ _ => true
  | .subReg _ _ => true
  | .shr _ y => y == 0#4
  | .subnReg _ _ => true
  | .shl _ y => y == 0#4
  | .sneReg _ _ ign => ign == 0#4
  | .ldI _ => true
  | .jpV0 _ => true
  | .rnd _ _ => true
  | .drw _ _ _ => true
  | .skp _ => true
  | .sknp _ => true
  | .ldVxDt _ => true
  | .ldVxK _ => true
  | .ldDtVx _ => true
  | .ldStVx _ => true
  | .addI _ => true
  | .ldF _ => true
  | .ldB _ => true
  | .stRegs _ => true
  | .ldRegs _ => true

/-- The canonical form of an instruction: its ignored bits cleared (R69). -/
def Instr.canonical : Instr → Instr
  | .cls _ => .cls 0#4
  | .ret _ => .ret 0#4
  | .seReg x y _ => .seReg x y 0#4
  | .shr x _ => .shr x 0#4
  | .shl x _ => .shl x 0#4
  | .sneReg x y _ => .sneReg x y 0#4
  | .jp nnn => .jp nnn
  | .call nnn => .call nnn
  | .seImm x nn => .seImm x nn
  | .sneImm x nn => .sneImm x nn
  | .ldImm x nn => .ldImm x nn
  | .addImm x nn => .addImm x nn
  | .ldReg x y => .ldReg x y
  | .orReg x y => .orReg x y
  | .andReg x y => .andReg x y
  | .xorReg x y => .xorReg x y
  | .addReg x y => .addReg x y
  | .subReg x y => .subReg x y
  | .subnReg x y => .subnReg x y
  | .ldI nnn => .ldI nnn
  | .jpV0 nnn => .jpV0 nnn
  | .rnd x nn => .rnd x nn
  | .drw x y n => .drw x y n
  | .skp x => .skp x
  | .sknp x => .sknp x
  | .ldVxDt x => .ldVxDt x
  | .ldVxK x => .ldVxK x
  | .ldDtVx x => .ldDtVx x
  | .ldStVx x => .ldStVx x
  | .addI x => .addI x
  | .ldF x => .ldF x
  | .ldB x => .ldB x
  | .stRegs x => .stRegs x
  | .ldRegs x => .ldRegs x

end Sys2Proof
end

