-- ==== Sys2Proof/Decode.lean ====
section
/-! DEFINITION. The Instruction Reader and the decoder (30_encoding.md R61 to R69), then the encoder. -/

namespace Sys2Proof

/-! ## The Instruction Reader (R61, R62) -/

/-- `class = w & 0xF000`, left in place (R61). -/
def fieldClass (w : Word) : Word := w &&& 0xF000#16

/-- `X = (w & 0x0F00) >> 8` (R61). -/
def fieldX (w : Word) : Nibble := ((w &&& 0x0F00#16) >>> 8).setWidth 4

/-- `Y = (w & 0x00F0) >> 4` (R61). -/
def fieldY (w : Word) : Nibble := ((w &&& 0x00F0#16) >>> 4).setWidth 4

/-- `N = w & 0x000F` (R61). -/
def fieldN (w : Word) : Nibble := (w &&& 0x000F#16).setWidth 4

/-- `NN = w & 0x00FF` (R61). -/
def fieldNN (w : Word) : Byte := (w &&& 0x00FF#16).setWidth 8

/-- `NNN = w & 0x0FFF` (R61). -/
def fieldNNN (w : Word) : Addr12 := (w &&& 0x0FFF#16).setWidth 12

/-! ## The decoder (R65, R66, R68, R69) -/

/-- Why bytes are no instruction. -/
inductive DecodeError where
  /-- The word matches no row of R66; the condition names the offending word (R65, R68). -/
  | unrecognizedInstruction (w : Word)
  /-- Fewer than two bytes are left (R60). -/
  | truncated
  deriving DecidableEq, Repr

/-- Second level of class 0x0, by `NN` (R65, R66 rows 1 and 2). -/
def decodeClass0 (w : Word) : Except DecodeError Instr :=
  if fieldNN w = 0xE0#8 then .ok (.cls (fieldX w))
  else if fieldNN w = 0xEE#8 then .ok (.ret (fieldX w))
  else .error (.unrecognizedInstruction w)

/-- Second level of class 0x8, by `N` (R65, R66 rows 10 to 18). -/
def decodeClass8 (w : Word) : Except DecodeError Instr :=
  if fieldN w = 0x0#4 then .ok (.ldReg (fieldX w) (fieldY w))
  else if fieldN w = 0x1#4 then .ok (.orReg (fieldX w) (fieldY w))
  else if fieldN w = 0x2#4 then .ok (.andReg (fieldX w) (fieldY w))
  else if fieldN w = 0x3#4 then .ok (.xorReg (fieldX w) (fieldY w))
  else if fieldN w = 0x4#4 then .ok (.addReg (fieldX w) (fieldY w))
  else if fieldN w = 0x5#4 then .ok (.subReg (fieldX w) (fieldY w))
  else if fieldN w = 0x6#4 then .ok (.shr (fieldX w) (fieldY w))
  else if fieldN w = 0x7#4 then .ok (.subnReg (fieldX w) (fieldY w))
  else if fieldN w = 0xE#4 then .ok (.shl (fieldX w) (fieldY w))
  else .error (.unrecognizedInstruction w)

/-- Second level of class 0xE, by `NN` (R65, R66 rows 24 and 25). -/
def decodeClassE (w : Word) : Except DecodeError Instr :=
  if fieldNN w = 0x9E#8 then .ok (.skp (fieldX w))
  else if fieldNN w = 0xA1#8 then .ok (.sknp (fieldX w))
  else .error (.unrecognizedInstruction w)

/-- Second level of class 0xF, by `NN` (R65, R66 rows 26 to 34). -/
def decodeClassF (w : Word) : Except DecodeError Instr :=
  if fieldNN w = 0x07#8 then .ok (.ldVxDt (fieldX w))
  else if fieldNN w = 0x0A#8 then .ok (.ldVxK (fieldX w))
  else if fieldNN w = 0x15#8 then .ok (.ldDtVx (fieldX w))
  else if fieldNN w = 0x18#8 then .ok (.ldStVx (fieldX w))
  else if fieldNN w = 0x1E#8 then .ok (.addI (fieldX w))
  else if fieldNN w = 0x29#8 then .ok (.ldF (fieldX w))
  else if fieldNN w = 0x33#8 then .ok (.ldB (fieldX w))
  else if fieldNN w = 0x55#8 then .ok (.stRegs (fieldX w))
  else if fieldNN w = 0x65#8 then .ok (.ldRegs (fieldX w))
  else .error (.unrecognizedInstruction w)

/-- Decode a word: "a two-level lookup: first by `class`, then, for the `0x0`, `0x8`, `0xE`, `0xF` classes, by `NN` or
`N`" (R65). A word outside the table is an error that names it (R68). -/
def decodeWord (w : Word) : Except DecodeError Instr :=
  if fieldClass w = 0x0000#16 then decodeClass0 w
  else if fieldClass w = 0x1000#16 then .ok (.jp (fieldNNN w))
  else if fieldClass w = 0x2000#16 then .ok (.call (fieldNNN w))
  else if fieldClass w = 0x3000#16 then .ok (.seImm (fieldX w) (fieldNN w))
  else if fieldClass w = 0x4000#16 then .ok (.sneImm (fieldX w) (fieldNN w))
  else if fieldClass w = 0x5000#16 then .ok (.seReg (fieldX w) (fieldY w) (fieldN w))
  else if fieldClass w = 0x6000#16 then .ok (.ldImm (fieldX w) (fieldNN w))
  else if fieldClass w = 0x7000#16 then .ok (.addImm (fieldX w) (fieldNN w))
  else if fieldClass w = 0x8000#16 then decodeClass8 w
  else if fieldClass w = 0x9000#16 then .ok (.sneReg (fieldX w) (fieldY w) (fieldN w))
  else if fieldClass w = 0xA000#16 then .ok (.ldI (fieldNNN w))
  else if fieldClass w = 0xB000#16 then .ok (.jpV0 (fieldNNN w))
  else if fieldClass w = 0xC000#16 then .ok (.rnd (fieldX w) (fieldNN w))
  else if fieldClass w = 0xD000#16 then .ok (.drw (fieldX w) (fieldY w) (fieldN w))
  else if fieldClass w = 0xE000#16 then decodeClassE w
  else if fieldClass w = 0xF000#16 then decodeClassF w
  else .error (.unrecognizedInstruction w)

/-- The word of two bytes, high byte first (R41, R60). -/
def wordOfBytes (hi lo : Byte) : Word := hi ++ lo

/-- The high byte of a word, which stands at the lower address (R41, R60). -/
def highByte (w : Word) : Byte := w.extractLsb' 8 8

/-- The low byte of a word (R41, R60). -/
def lowByte (w : Word) : Byte := w.extractLsb' 0 8

/-- Decode the first instruction of a list of bytes and answer the bytes after it (R60). Total. -/
def decodeBytes : List Byte → Except DecodeError (Instr × List Byte)
  | hi :: lo :: rest =>
    match decodeWord (wordOfBytes hi lo) with
    | .ok i => .ok (i, rest)
    | .error e => .error e
  | _ => .error .truncated

/-- The word of a row of the opcode table: `nbits` bits, bit 0 the least significant, every bit above them 0. -/
def tableWord (nbits w : Nat) : Word := BitVec.ofNat 16 (w % 2 ^ nbits)

/-- The instruction the decoder reads from a table word laid out as the hardware stores it, high byte first. -/
def decodeTableWord (nbits w : Nat) : Option Instr :=
  match decodeBytes [highByte (tableWord nbits w), lowByte (tableWord nbits w)] with
  | .ok (i, _) => some i
  | .error _ => none

/-! ## The opcode map as rows of mask and match (R66) -/

/-- One row of R66: a word `w` is this instruction iff `w & mask == bits`. -/
structure OpcodeRow where
  mnemonic : String
  mask : Word
  bits : Word
  /-- The instruction with the operand fields of the word. -/
  build : Word → Instr

/-- Rows 1 to 9 of R66. -/
def opcodeRows1 : List OpcodeRow :=
  [ ⟨"CLS", 0xF0FF#16, 0x00E0#16, fun w => .cls (fieldX w)⟩,
    ⟨"RET", 0xF0FF#16, 0x00EE#16, fun w => .ret (fieldX w)⟩,
    ⟨"JP_NNN", 0xF000#16, 0x1000#16, fun w => .jp (fieldNNN w)⟩,
    ⟨"CALL_NNN", 0xF000#16, 0x2000#16, fun w => .call (fieldNNN w)⟩,
    ⟨"SE_Vx__NN", 0xF000#16, 0x3000#16, fun w => .seImm (fieldX w) (fieldNN w)⟩,
    ⟨"SNE_Vx__NN", 0xF000#16, 0x4000#16, fun w => .sneImm (fieldX w) (fieldNN w)⟩,
    ⟨"SE_Vx__Vy", 0xF000#16, 0x5000#16, fun w => .seReg (fieldX w) (fieldY w) (fieldN w)⟩,
    ⟨"LD_Vx__NN", 0xF000#16, 0x6000#16, fun w => .ldImm (fieldX w) (fieldNN w)⟩,
    ⟨"ADD_Vx__NN", 0xF000#16, 0x7000#16, fun w => .addImm (fieldX w) (fieldNN w)⟩ ]

/-- Rows 10 to 18 of R66, class 0x8. -/
def opcodeRows2 : List OpcodeRow :=
  [ ⟨"LD_Vx__Vy", 0xF00F#16, 0x8000#16, fun w => .ldReg (fieldX w) (fieldY w)⟩,
    ⟨"OR_Vx__Vy", 0xF00F#16, 0x8001#16, fun w => .orReg (fieldX w) (fieldY w)⟩,
    ⟨"AND_Vx__Vy", 0xF00F#16, 0x8002#16, fun w => .andReg (fieldX w) (fieldY w)⟩,
    ⟨"XOR_Vx__Vy", 0xF00F#16, 0x8003#16, fun w => .xorReg (fieldX w) (fieldY w)⟩,
    ⟨"ADD_Vx__Vy", 0xF00F#16, 0x8004#16, fun w => .addReg (fieldX w) (fieldY w)⟩,
    ⟨"SUB_Vx__Vy", 0xF00F#16, 0x8005#16, fun w => .subReg (fieldX w) (fieldY w)⟩,
    ⟨"SHR_Vx", 0xF00F#16, 0x8006#16, fun w => .shr (fieldX w) (fieldY w)⟩,
    ⟨"SUBN_Vx__Vy", 0xF00F#16, 0x8007#16, fun w => .subnReg (fieldX w) (fieldY w)⟩,
    ⟨"SHL_Vx", 0xF00F#16, 0x800E#16, fun w => .shl (fieldX w) (fieldY w)⟩ ]

/-- Rows 19 to 25 of R66. -/
def opcodeRows3 : List OpcodeRow :=
  [ ⟨"SNE_Vx__Vy", 0xF000#16, 0x9000#16, fun w => .sneReg (fieldX w) (fieldY w) (fieldN w)⟩,
    ⟨"LD_I__NNN", 0xF000#16, 0xA000#16, fun w => .ldI (fieldNNN w)⟩,
    ⟨"JP_V0__NNN", 0xF000#16, 0xB000#16, fun w => .jpV0 (fieldNNN w)⟩,
    ⟨"RND_Vx__NN", 0xF000#16, 0xC000#16, fun w => .rnd (fieldX w) (fieldNN w)⟩,
    ⟨"DRW_Vx__Vy__N", 0xF000#16, 0xD000#16, fun w => .drw (fieldX w) (fieldY w) (fieldN w)⟩,
    ⟨"SKP_Vx", 0xF0FF#16, 0xE09E#16, fun w => .skp (fieldX w)⟩,
    ⟨"SKNP_Vx", 0xF0FF#16, 0xE0A1#16, fun w => .sknp (fieldX w)⟩ ]

/-- Rows 26 to 34 of R66, class 0xF. -/
def opcodeRows4 : List OpcodeRow :=
  [ ⟨"LD_Vx__DT", 0xF0FF#16, 0xF007#16, fun w => .ldVxDt (fieldX w)⟩,
    ⟨"LD_Vx__K", 0xF0FF#16, 0xF00A#16, fun w => .ldVxK (fieldX w)⟩,
    ⟨"LD_DT__Vx", 0xF0FF#16, 0xF015#16, fun w => .ldDtVx (fieldX w)⟩,
    ⟨"LD_ST__Vx", 0xF0FF#16, 0xF018#16, fun w => .ldStVx (fieldX w)⟩,
    ⟨"ADD_I__Vx", 0xF0FF#16, 0xF01E#16, fun w => .addI (fieldX w)⟩,
    ⟨"LD_F__Vx", 0xF0FF#16, 0xF029#16, fun w => .ldF (fieldX w)⟩,
    ⟨"LD_B__Vx", 0xF0FF#16, 0xF033#16, fun w => .ldB (fieldX w)⟩,
    ⟨"LD__I___Vx", 0xF0FF#16, 0xF055#16, fun w => .stRegs (fieldX w)⟩,
    ⟨"LD_Vx___I", 0xF0FF#16, 0xF065#16, fun w => .ldRegs (fieldX w)⟩ ]

/-- The 34 rows of the opcode map (R66). -/
def opcodeRows : List OpcodeRow := opcodeRows1 ++ opcodeRows2 ++ opcodeRows3 ++ opcodeRows4

/-- Decode by the rows of R66: the row whose mask and match the word meets. The decoder above is the two-level lookup of
R65; that the two agree is stated in the obligations. -/
def decodeByRows (w : Word) : Except DecodeError Instr :=
  match opcodeRows.find? (fun r => w &&& r.mask == r.bits) with
  | some r => .ok (r.build w)
  | none => .error (.unrecognizedInstruction w)

/-! ## The encoder (R66, R63) -/

/-- Format `NNN`: class nibble, then the 12-bit immediate (R63). -/
def wordNNN (c : Nibble) (nnn : Addr12) : Word := c ++ nnn

/-- Formats `OP`, `XNN` and `X`: class nibble, `X` in bits 11..8, `NN` in bits 7..0 (R63). -/
def wordXNN (c x : Nibble) (nn : Byte) : Word := c ++ x ++ nn

/-- Formats `XY` and `XYN`: class nibble, `X` in bits 11..8, `Y` in bits 7..4, `N` in bits 3..0 (R63). -/
def wordXYN (c x y n : Nibble) : Word := c ++ x ++ y ++ n

/-- The word of an instruction, its fields from bit 15 down, as the pattern column of R66 writes them. -/
def encode : Instr → Word
  | .cls ign => wordXNN 0x0#4 ign 0xE0#8
  | .ret ign => wordXNN 0x0#4 ign 0xEE#8
  | .jp nnn => wordNNN 0x1#4 nnn
  | .call nnn => wordNNN 0x2#4 nnn
  | .seImm x nn => wordXNN 0x3#4 x nn
  | .sneImm x nn => wordXNN 0x4#4 x nn
  | .seReg x y ign => wordXYN 0x5#4 x y ign
  | .ldImm x nn => wordXNN 0x6#4 x nn
  | .addImm x nn => wordXNN 0x7#4 x nn
  | .ldReg x y => wordXYN 0x8#4 x y 0x0#4
  | .orReg x y => wordXYN 0x8#4 x y 0x1#4
  | .andReg x y => wordXYN 0x8#4 x y 0x2#4
  | .xorReg x y => wordXYN 0x8#4 x y 0x3#4
  | .addReg x y => wordXYN 0x8#4 x y 0x4#4
  | .subReg x y => wordXYN 0x8#4 x y 0x5#4
  | .shr x y => wordXYN 0x8#4 x y 0x6#4
  | .subnReg x y => wordXYN 0x8#4 x y 0x7#4
  | .shl x y => wordXYN 0x8#4 x y 0xE#4
  | .sneReg x y ign => wordXYN 0x9#4 x y ign
  | .ldI nnn => wordNNN 0xA#4 nnn
  | .jpV0 nnn => wordNNN 0xB#4 nnn
  | .rnd x nn => wordXNN 0xC#4 x nn
  | .drw x y n => wordXYN 0xD#4 x y n
  | .skp x => wordXNN 0xE#4 x 0x9E#8
  | .sknp x => wordXNN 0xE#4 x 0xA1#8
  | .ldVxDt x => wordXNN 0xF#4 x 0x07#8
  | .ldVxK x => wordXNN 0xF#4 x 0x0A#8
  | .ldDtVx x => wordXNN 0xF#4 x 0x15#8
  | .ldStVx x => wordXNN 0xF#4 x 0x18#8
  | .addI x => wordXNN 0xF#4 x 0x1E#8
  | .ldF x => wordXNN 0xF#4 x 0x29#8
  | .ldB x => wordXNN 0xF#4 x 0x33#8
  | .stRegs x => wordXNN 0xF#4 x 0x55#8
  | .ldRegs x => wordXNN 0xF#4 x 0x65#8

/-- The bytes of an instruction in memory, high byte first (R60). -/
def encodeBytes (i : Instr) : List Byte := [highByte (encode i), lowByte (encode i)]

end Sys2Proof
end

