-- ==== Sys2Proof/Config.lean ====
section
/-! DEFINITION. What is fixed for the machine (00_scope.md R4) and the values the spec leaves free. -/

namespace Sys2Proof

/-- `MEM_SIZE`: addresses run 0..4095 (R4, R10). -/
def memSize : Nat := 4096

/-- `PROGRAM_BASE`: reset value of `PC` and load address of the program image (R4, R24, R180). -/
def programBase : Word := 0x200#16

/-- `STACK_DEPTH` (R4, R16). -/
def stackDepth : Nat := 16

/-- `FB_W`: pixels in a row (R4, R19). -/
def fbWidth : Nat := 64

/-- `FB_H`: rows of the framebuffer (R4, R19). -/
def fbHeight : Nat := 32

/-- `GLYPH_STRIDE`: bytes per font glyph (R4, R122, D14). -/
def glyphStride : Nat := 5

/-- The largest font image, which stays below 0x200 (R181). -/
def maxFontImage : Nat := 512

/-- The largest program image, which ends at or before 0xFFF (R181). -/
def maxProgramImage : Nat := 3584

/-- The OPEN parameters of R4 that an instruction reads. They are arguments of the model; since the forms of `exec`
and `step` are fixed they stand in `State` as data that no operation writes (log 2). -/
structure Config where
  /-- `FONT_BASE`, the address of glyph 0; the spec's default is 0x000 (R4, R122, D14). -/
  fontBase : Word := 0x000#16
  deriving DecidableEq, Repr

/-- FREE VALUE (R113, D19, log 1): the byte that the Randomness collaborator hands out for its `n`-th consultation.
It has no body: nothing can be proved of its value, so a claim holds for every draw. -/
opaque Config.rndByte : Nat → Byte

end Sys2Proof
end

