-- ==== Sys2Proof/Machine/State.lean ====
section
/-! DEFINITION. The state of the machine (10_state.md R10 to R19, R23, R25), its reset values (R24), and the ways an
operation can stop (60_exceptions.md R161, 70_reset_and_hazards.md R181). -/

namespace Sys2Proof.Machine

/-- `mem`, held as the cells that are not zero, addresses rising; an unlisted address reads 0, the spec's own reset
contents (R10, R24). `Memory.wf` of Machine/Ops.lean is the canonical form. -/
abbrev Memory := List Host.Cell

/-- `fb`, 2048 one-bit cells, row-major, held as 32 rows of 64 bits: cell `p` is bit `p % 64` of row `p / 64`, so cell
`y * 64 + x` is the pixel of column `x`, row `y` (R19; log 11). `Framebuffer.pixel` reads a cell by its flat index. -/
abbrev Framebuffer := Vector (BitVec 64) 32

/-- The operations a host invokes on the core, one at a time (00_scope.md R5). -/
inductive HostOp where
  /-- `STEP`: fetch, decode, execute one instruction (R70). -/
  | step
  /-- `KEY(k)`: the key-press notification (R144). -/
  | key (k : Nibble)
  /-- `TICK_DELAY` (R154). -/
  | tickDelay
  /-- `TICK_SOUND` (R155). -/
  | tickSound
  /-- `RESET(FONT_IMAGE, PROGRAM_IMAGE)` (R180). -/
  | reset (fontImage programImage : List Byte)
  deriving DecidableEq, Repr

/-- The whole state (R23). The first twelve fields are the spec's; the last three are the model's own. -/
structure State where
  /-- Memory, 4096 bytes (R10). -/
  mem : Memory
  /-- `V0` to `VF` (R11); `VF` is also the flag (R12). -/
  v : Vector Byte 16
  /-- The index register `I` (R13). -/
  i : Word
  /-- The program counter (R14). -/
  pc : Word
  /-- The delay timer (R15). -/
  dt : Byte
  /-- The sound timer (R15). -/
  st : Byte
  /-- The call stack, outside memory (R16). -/
  stack : Vector Word 16
  /-- `SP`, 0 to 16, the next free slot (R16). -/
  sp : Fin 17
  /-- A key has been reported since reset (R17). -/
  keyValid : Bool
  /-- The key reported last; 0 while none is (R17). -/
  keyCode : Nibble
  /-- The core waits for a key (R18). -/
  isHalted : Bool
  /-- The second bit of the key-wait sub-state, always equal to `isHalted` (R18, R20). -/
  hasPendingKeyWait : Bool
  /-- The register the wait resolves into; keeps its last value while running (R18). -/
  pendingKeyWaitRegister : Reg
  /-- The framebuffer (R19). -/
  fb : Framebuffer
  /-- The model's own: how many random bytes have been drawn (R113; log 1). -/
  rndDraws : Nat
  /-- The model's own: the parameters of R4; no operation writes them (log 2). -/
  config : Config
  /-- The model's own: the operations the host invokes next; when there is none it invokes `STEP` (R5; log 3). -/
  hostOps : List HostOp
  deriving DecidableEq, Repr

/-- The faults of R161. Each ends the `STEP` that raises it and leaves the state as it was (R165); none is the model's
own, and all are safe. -/
inductive Fault where
  /-- Code 1, raised by the decode stage: the fetched word matches no row of R66 (R162). The spec's fault; safe. -/
  | unrecognizedInstruction (w : Word)
  /-- Code 2, raised by `CALL` at `SP = 16` (R163). The spec's fault; safe. -/
  | stackOverflow
  /-- Code 3, raised by `RET` at `SP = 0` (R163). The spec's fault; safe. -/
  | stackUnderflow
  /-- Code 4, raised by the fetch, `DRW`, `LD B`, `LD [I], Vx` and `LD Vx, [I]`: an address above 4095 would be touched;
  carries the smallest one (R164, R44). The spec's fault; safe. -/
  | outOfRangeAccess (a : Word)
  deriving DecidableEq, Repr

/-- Why the model answers no state. -/
inductive Refusal where
  /-- Raised by `exec` for an instruction that has no meaning yet; no arm does so now. Safe. -/
  | notModelled (mnemonic : String)
  /-- Raised by `RESET`: the font image is longer than 512 bytes, "refused by the loader" (R181). Safe. -/
  | fontImageTooLong
  /-- Raised by `RESET`: the program image is longer than 3584 bytes, "refused by the loader" (R181). Safe. -/
  | programImageTooLong
  deriving DecidableEq, Repr

/-- The result a `STEP` reports to the host (R160). -/
inductive StepResult where
  /-- One instruction was fetched, decoded and executed. -/
  | executed
  /-- The core was waiting for a key and did nothing. -/
  | halted
  /-- The step ended in a fault. -/
  | fault (f : Fault)
  /-- The model has no meaning for the instruction; no `STEP` answers this (stated in the obligations). -/
  | refused (r : Refusal)
  deriving DecidableEq, Repr

/-- The state right after reset with no image: all zero but `PC = 0x200` (R24, R180). -/
def State.reset : State where
  mem := []
  v := Vector.replicate 16 0#8
  i := 0#16
  pc := programBase
  dt := 0#8
  st := 0#8
  stack := Vector.replicate 16 0#16
  sp := 0
  keyValid := false
  keyCode := 0#4
  isHalted := false
  hasPendingKeyWait := false
  pendingKeyWaitRegister := 0#4
  fb := Vector.replicate 32 0#64
  rndDraws := 0
  config := {}
  hostOps := []

end Sys2Proof.Machine
end

