-- ==== Sys2Proof/Machine/Ops.lean ====
section
/-! DEFINITION. The operations that every meaning is made of: memory, registers, program counter, call stack, the range
check, raising a fault (00_scope.md R8, 20_memory.md R41 to R45, 60_exceptions.md R165, R167). -/

namespace Sys2Proof.Machine

/-! ## Memory -/

/-- The byte at an address; an address that is not listed reads 0 (R10, R24). -/
def Memory.read : Memory → Nat → Byte
  | [], _ => 0#8
  | (b, v) :: rest, a => if b = a then v else Memory.read rest a

/-- Write one byte and keep the canonical form: writing 0 removes the entry. -/
def Memory.write : Memory → Nat → Byte → Memory
  | [], a, v => if v = 0#8 then [] else [(a, v)]
  | (b, u) :: rest, a, v =>
    if a < b then (if v = 0#8 then (b, u) :: rest else (a, v) :: (b, u) :: rest)
    else if a = b then (if v = 0#8 then rest else (a, v) :: rest)
    else (b, u) :: Memory.write rest a v

/-- The addresses are at least `lo` and rise strictly, they exist, and no entry equals what an unlisted address reads. -/
def Memory.wfFrom : Nat → Memory → Bool
  | _, [] => true
  | lo, (a, v) :: rest => decide (lo ≤ a) && decide (a < memSize) && (v != 0#8) && Memory.wfFrom (a + 1) rest

/-- The canonical form: equal memories are equal lists. -/
def Memory.wf (m : Memory) : Bool := Memory.wfFrom 0 m

/-- Write bytes at ascending addresses from `a` (R42). -/
def Memory.writeBytes : Memory → Nat → List Byte → Memory
  | m, _, [] => m
  | m, a, b :: bs => Memory.writeBytes (m.write a b) (a + 1) bs

/-! ## Registers -/

/-- `V[x]` (R8, R11). -/
def State.readReg (s : State) (x : Reg) : Byte := s.v[x.toNat]

/-- `V[x] <- b` (R8, R11). -/
def State.writeReg (s : State) (x : Reg) (b : Byte) : State := { s with v := s.v.set x.toNat b }

/-- `I <- w` (R8, R13). -/
def State.setIndex (s : State) (w : Word) : State := { s with i := w }

/-- `PC <- w` (R8, R14). -/
def State.setPc (s : State) (w : Word) : State := { s with pc := w }

/-- `next`: `PC <- PC + 2`, modulo 65536 (R8, R14). -/
def State.advance (s : State) : State := s.setPc (s.pc + 2#16)

/-- `skip`: `PC <- PC + 4`, modulo 65536 (R8, R14). -/
def State.skipNext (s : State) : State := s.setPc (s.pc + 4#16)

/-- Skip when the test is true, else go to the next instruction (R14). -/
def State.skipIf (s : State) (test : Bool) : State := if test then s.skipNext else s.advance

/-! ## Faults -/

/-- Take a fault: the ONE way an operation ends in a fault. It "does not transfer control inside the machine" (R167): no
register is saved, no mode changes, there is no vector and nothing to return from (R169); the fault is the result of the
`STEP` and the state stays what it was before it (R165), so the outcome carries the fault alone. -/
def raiseFault (f : Fault) : Host.Outcome State Fault Refusal := .fault f

/-- The state after an operation that answered an outcome in state `s`: the next state, or `s` itself after a fault
(R165: "all state exactly as before the STEP", R169) and after a refusal. -/
def stateAfter (s : State) : Host.Outcome State Fault Refusal → State
  | .next t => t
  | .fault _ => s
  | .refused _ => s

/-- The code of a fault (R161). -/
def Fault.code : Fault → Nat
  | .unrecognizedInstruction _ => 1
  | .stackOverflow => 2
  | .stackUnderflow => 3
  | .outOfRangeAccess _ => 4

/-- The 16-bit `info` of a fault (R160, R161). -/
def Fault.info : Fault → Word
  | .unrecognizedInstruction w => w
  | .stackOverflow => 0#16
  | .stackUnderflow => 0#16
  | .outOfRangeAccess a => a

/-! ## Checked memory access -/

/-- The range check of R44 for `len` bytes from `base`: addresses do not wrap, and the fault carries the smallest address
above 4095, "`I` itself when `I ≥ 4096`, else 4096". No bytes, no fault (R132, `N = 0`). -/
def rangeFault? (base : Word) (len : Nat) : Option Fault :=
  if len = 0 ∨ base.toNat + len ≤ memSize then none
  else some (.outOfRangeAccess (if memSize ≤ base.toNat then base else 4096#16))

/-- Make the range check before anything is written, then go on (R44, R165). -/
def withRange (base : Word) (len : Nat) (body : Host.Outcome State Fault Refusal) : Host.Outcome State Fault Refusal :=
  match rangeFault? base len with
  | some f => raiseFault f
  | none => body

/-- The byte at an address that the range check has passed (R8). -/
def State.readByte (s : State) (a : Nat) : Byte := s.mem.read a

/-- Store bytes at ascending addresses that the range check has passed (R8, R42). -/
def State.storeBytes (s : State) (a : Nat) (bs : List Byte) : State := { s with mem := s.mem.writeBytes a bs }

/-- Instruction fetch: the two bytes at `PC`, high byte first; `PC > 4094` raises `OutOfRangeAccess` (R41). -/
def State.fetchWord (s : State) : Except Fault Word :=
  match rangeFault? s.pc 2 with
  | some f => .error f
  | none => .ok (s.readByte s.pc.toNat ++ s.readByte (s.pc.toNat + 1))

/-! ## Call stack -/

/-- Push a return address: write `stack[SP]`, then `SP + 1`; none when 16 are saved (R82, R163). -/
def State.push? (s : State) (w : Word) : Option State :=
  if h : s.sp.val < 16 then some { s with stack := s.stack.set s.sp.val w, sp := ⟨s.sp.val + 1, by omega⟩ } else none

/-- Pop a return address: `SP - 1`, then read `stack[SP]`, which keeps its value; none when nothing is saved (R81, R163). -/
def State.pop? (s : State) : Option (Word × State) :=
  if h : 0 < s.sp.val then
    some (s.stack[s.sp.val - 1]'(by omega), { s with sp := ⟨s.sp.val - 1, by omega⟩ })
  else none

end Sys2Proof.Machine
end

