-- ==== Sys2Proof/Machine/Operands.lean ====
section
/-! DEFINITION. Operand forms: zero-extended immediates, addresses through `I`, the register block, the current key,
pixels (30_encoding.md R64, 42_index_memory.md R126, 44_keyboard.md R140, 43_display.md R131). -/

namespace Sys2Proof.Machine

/-- `zext_16(NNN)` (R64). -/
def zext16 (nnn : Addr12) : Word := nnn.setWidth 16

/-- `zext_16(V[x])` (R64, R121, R83). -/
def State.regWord (s : State) (x : Reg) : Word := (s.readReg x).setWidth 16

/-- The one data addressing mode: `I + k`, without wrap-around in more than 16 bits (R126). -/
def State.indexAddr (s : State) (k : Nat) : Nat := s.i.toNat + k

/-- How many registers `V[0]` to `V[x]` are (R124, R125). -/
def blockLength (x : Reg) : Nat := x.toNat + 1

/-- `V[0]` to `V[x]`, in order (R124). -/
def State.regBlock (s : State) (x : Reg) : List Byte :=
  (List.range (blockLength x)).map fun k => s.readReg (BitVec.ofNat 4 k)

/-- `for k in 0..n-1: V[k] <- MemRead(I + k, 1)` (R125). -/
def State.loadBlock (s : State) : Nat → State
  | 0 => s
  | n + 1 => (s.loadBlock n).writeReg (BitVec.ofNat 4 n) (s.readByte (s.indexAddr n))

/-- Hundreds, tens and ones of a byte, by floor division and remainder (R123). -/
def decimalDigits (b : Byte) : List Byte :=
  [BitVec.ofNat 8 (b.toNat / 100), BitVec.ofNat 8 (b.toNat / 10 % 10), BitVec.ofNat 8 (b.toNat % 10)]

/-- `pressed(v) = (keyValid == 1) and (zext_8(keyCode) == v)`, all 8 bits of `v` compared (R140). -/
def State.pressed (s : State) (b : Byte) : Bool := s.keyValid && (s.keyCode.setWidth 8 == b)

/-- The address of the 5-byte glyph of a digit, `FONT_BASE + 5 * V[x]` modulo 65536, the digit not masked (R122). -/
def State.glyphAddr (s : State) (b : Byte) : Word := s.config.fontBase + BitVec.ofNat 16 (glyphStride * b.toNat)

/-- The cell of raw coordinates, each reduced on its own: column modulo 64, row modulo 32 (R131). -/
def pixelIndex (x y : Nat) : Fin 2048 := ⟨y % fbHeight * fbWidth + x % fbWidth, by simp only [fbHeight, fbWidth]; omega⟩

/-- The value of a cell of the framebuffer (R19). -/
def Framebuffer.pixel (fb : Framebuffer) (p : Fin 2048) : Bool := (fb[p.val / 64]'(by omega)).getLsbD (p.val % 64)

/-- XOR a bit into a cell (R132). -/
def Framebuffer.xorPixel (fb : Framebuffer) (p : Fin 2048) (bit : Bool) : Framebuffer :=
  if bit then
    fb.set (p.val / 64) ((fb[p.val / 64]'(by omega)) ^^^ BitVec.twoPow 64 (p.val % 64)) (by omega)
  else fb

/-- The sprite bit of a column: column 0 is bit 7, the leftmost pixel (R132). -/
def spriteBit (row : Byte) (col : Nat) : Bool := row.getLsbD (7 - col)

end Sys2Proof.Machine
end

