-- ==== Sys2Proof/Machine/Flags.lean ====
section
/-! DEFINITION. The flag computations, and the order of the two writes of a flag-writing instruction (41_alu.md R100,
R107 to R111; 43_display.md R133). The flag is register 15 and nothing else (10_state.md R12). -/

namespace Sys2Proof.Machine

/-- A flag as a register value, 0 or 1 (R12). -/
def flagByte (b : Bool) : Byte := if b then 1#8 else 0#8

/-- `VF <- flag` (R12). -/
def State.writeFlag (s : State) (b : Bool) : State := s.writeReg vF (flagByte b)

/-- Carry of `ADD Vx, Vy`: `V[Y] > 255 - V[X]` (R107). -/
def carryFlag (vx vy : Byte) : Bool := decide (vy.toNat > 255 - vx.toNat)

/-- Borrow of `SUB`: 1 if `V[X] < V[Y]`, else 0 (R109, D6). -/
def borrowFlag (vx vy : Byte) : Bool := decide (vx.toNat < vy.toNat)

/-- The flag of `SUBN`: 0 if `V[X] < V[Y]`, else 1 (R111, D6). -/
def subnFlag (vx vy : Byte) : Bool := !decide (vx.toNat < vy.toNat)

/-- The bit `SHR` shifts out, `V[X] & 1` (R108). -/
def shrFlag (vx : Byte) : Bool := vx &&& 1#8 == 1#8

/-- The bit `SHL` shifts out, `V[X] >> 7` (R110, D7). -/
def shlFlag (vx : Byte) : Bool := vx >>> 7 == 1#8

/-- The collision detector for one pixel: it was 1 and meets a sprite bit 1 (R133). -/
def pixelCollides (fb : Framebuffer) (p : Fin 2048) (bit : Bool) : Bool := fb.pixel p && bit

/-- The two writes of a flag-writing instruction: first `VF <- flag`, the flag computed from the old registers, then
`V[X] <- result`, the result computed from the registers as they stand after the write of `VF`; then `next` (R100, D5). -/
def State.flagThenResult (s : State) (flag : Bool) (x : Reg) (result : State → Byte) : State :=
  let s1 := s.writeFlag flag
  (s1.writeReg x (result s1)).advance

end Sys2Proof.Machine
end

