-- ==== Sys2Proof/Machine/Alu.lean ====
section
/-! DEFINITION. Register and ALU instructions (41_alu.md). All arithmetic wraps at 8 bits (R112); none can fault. -/

namespace Sys2Proof.Machine

/-- `V[X] <- b; next`, the shape of every instruction here that writes no flag. -/
def State.setRegNext (s : State) (x : Reg) (b : Byte) : Host.Outcome State Fault Refusal := .next ((s.writeReg x b).advance)

/-- `LD Vx, NN` (R101). -/
def execLdImm (x : Reg) (nn : Byte) (s : State) : Host.Outcome State Fault Refusal := s.setRegNext x nn

/-- `ADD Vx, NN`: no flag (R102, D8). -/
def execAddImm (x : Reg) (nn : Byte) (s : State) : Host.Outcome State Fault Refusal := s.setRegNext x (s.readReg x + nn)

/-- `LD Vx, Vy` (R103). -/
def execLdReg (x y : Reg) (s : State) : Host.Outcome State Fault Refusal := s.setRegNext x (s.readReg y)

/-- `OR Vx, Vy`: no flag (R104, D8). -/
def execOrReg (x y : Reg) (s : State) : Host.Outcome State Fault Refusal := s.setRegNext x (s.readReg x ||| s.readReg y)

/-- `AND Vx, Vy`: no flag (R105, D8). -/
def execAndReg (x y : Reg) (s : State) : Host.Outcome State Fault Refusal := s.setRegNext x (s.readReg x &&& s.readReg y)

/-- `XOR Vx, Vy`: no flag (R106, D8). -/
def execXorReg (x y : Reg) (s : State) : Host.Outcome State Fault Refusal := s.setRegNext x (s.readReg x ^^^ s.readReg y)

/-- `ADD Vx, Vy`: `VF <- carry`, then the sum (R107, R100). There is no carry-in. -/
def execAddReg (x y : Reg) (s : State) : Host.Outcome State Fault Refusal :=
  .next (s.flagThenResult (carryFlag (s.readReg x) (s.readReg y)) x fun t => t.readReg x + t.readReg y)

/-- `SUB Vx, Vy`: `VF <- borrow`, then `V[X] - V[Y]` (R109, R100). -/
def execSubReg (x y : Reg) (s : State) : Host.Outcome State Fault Refusal :=
  .next (s.flagThenResult (borrowFlag (s.readReg x) (s.readReg y)) x fun t => t.readReg x - t.readReg y)

/-- `SHR Vx`: `VF <- bit 0`, then a logical shift right by one, in place (R108, R100). -/
def execShr (x : Reg) (s : State) : Host.Outcome State Fault Refusal :=
  .next (s.flagThenResult (shrFlag (s.readReg x)) x fun t => t.readReg x >>> 1)

/-- `SUBN Vx, Vy`: `VF <- 0` if `V[X] < V[Y]` else 1, then `V[Y] - V[X]` (R111, R100). -/
def execSubnReg (x y : Reg) (s : State) : Host.Outcome State Fault Refusal :=
  .next (s.flagThenResult (subnFlag (s.readReg x) (s.readReg y)) x fun t => t.readReg y - t.readReg x)

/-- `SHL Vx`: `VF <- bit 7`, then a shift left by one, in place (R110, R100). -/
def execShl (x : Reg) (s : State) : Host.Outcome State Fault Refusal :=
  .next (s.flagThenResult (shlFlag (s.readReg x)) x fun t => t.readReg x <<< 1)

/-- `V[X] <- rnd & NN; next` for the random byte `rnd`; one more byte is drawn (R113). -/
def State.randomStore (s : State) (rnd : Byte) (x : Reg) (nn : Byte) : Host.Outcome State Fault Refusal :=
  State.setRegNext { s with rndDraws := s.rndDraws + 1 } x (rnd &&& nn)

/-- `RND Vx, NN`: the byte is the free value of this draw (R113, D19; log 1). -/
def execRnd (x : Reg) (nn : Byte) (s : State) : Host.Outcome State Fault Refusal :=
  s.randomStore (Config.rndByte s.rndDraws) x nn

end Sys2Proof.Machine
end

