-- ==== Sys2Proof/Machine/Control.lean ====
section
/-! DEFINITION. Control transfer: jumps, call, return, the four skips (40_control_transfer.md). -/

namespace Sys2Proof.Machine

/-- `JP NNN`: `PC <- zext_16(NNN)` (R80). -/
def execJp (nnn : Addr12) (s : State) : Host.Outcome State Fault Refusal := .next (s.setPc (zext16 nnn))

/-- `CALL NNN`: push `PC + 2`, then `PC <- zext_16(NNN)`; `StackOverflow` when 16 are saved (R82). -/
def execCall (nnn : Addr12) (s : State) : Host.Outcome State Fault Refusal :=
  match s.push? (s.pc + 2#16) with
  | some t => .next (t.setPc (zext16 nnn))
  | none => raiseFault .stackOverflow

/-- `RET`: pop into `PC`; `StackUnderflow` when nothing is saved (R81). -/
def execRet (s : State) : Host.Outcome State Fault Refusal :=
  match s.pop? with
  | some (w, t) => .next (t.setPc w)
  | none => raiseFault .stackUnderflow

/-- `JP V0, NNN`: `PC <- zext_16(NNN) + zext_16(V[0])`, not reduced modulo 4096 (R83, D27). -/
def execJpV0 (nnn : Addr12) (s : State) : Host.Outcome State Fault Refusal := .next (s.setPc (zext16 nnn + s.regWord 0#4))

/-- `SE Vx, NN`: skip if `V[X] == NN` (R84). -/
def execSeImm (x : Reg) (nn : Byte) (s : State) : Host.Outcome State Fault Refusal := .next (s.skipIf (s.readReg x == nn))

/-- `SNE Vx, NN`: skip if `V[X] != NN` (R85). -/
def execSneImm (x : Reg) (nn : Byte) (s : State) : Host.Outcome State Fault Refusal := .next (s.skipIf (s.readReg x != nn))

/-- `SE Vx, Vy`: skip if `V[X] == V[Y]` (R86). -/
def execSeReg (x y : Reg) (s : State) : Host.Outcome State Fault Refusal :=
  .next (s.skipIf (s.readReg x == s.readReg y))

/-- `SNE Vx, Vy`: skip if `V[X] != V[Y]` (R87). -/
def execSneReg (x y : Reg) (s : State) : Host.Outcome State Fault Refusal :=
  .next (s.skipIf (s.readReg x != s.readReg y))

end Sys2Proof.Machine
end

