-- ==== Sys2Proof/Machine/Display.lean ====
section
/-! DEFINITION. Display instructions and the collision detector, on the internal framebuffer (43_display.md, R134). -/

namespace Sys2Proof.Machine

/-- `CLS`: every pixel 0; `VF` is not written (R130). -/
def execCls (s : State) : Host.Outcome State Fault Refusal := .next ({ s with fb := Vector.replicate 32 0#64 } : State).advance

/-- What a draw has done so far: the framebuffer and whether any pixel collided (R133). -/
structure Canvas where
  fb : Framebuffer
  collided : Bool
  deriving DecidableEq, Repr

/-- One pixel: the collision is taken from the old pixel, then the bit is XORed in (R132, R133). -/
def drawPixel (c : Canvas) (p : Fin 2048) (bit : Bool) : Canvas :=
  { fb := c.fb.xorPixel p bit, collided := c.collided || pixelCollides c.fb p bit }

/-- The first `n` columns of one sprite row with its left end at raw coordinates `(x, y)` (R132). -/
def drawColumns (c : Canvas) (x y : Nat) (row : Byte) : Nat → Canvas
  | 0 => c
  | n + 1 => drawPixel (drawColumns c x y row n) (pixelIndex (x + n) y) (spriteBit row n)

/-- The first `n` rows of the sprite in memory at `I`, its corner at raw coordinates `(x, y)`: "for row in 0..N-1: for col
in 0..7" (R132). -/
def drawRows (s : State) (x y : Nat) : Nat → Canvas
  | 0 => { fb := s.fb, collided := false }
  | n + 1 => drawColumns (drawRows s x y n) x (y + n) (s.readByte (s.indexAddr n)) 8

/-- `DRW Vx, Vy, N`: the range check first; the coordinates are read before `VF` is written; `VF` is written last (R132,
D17). -/
def execDrw (x y : Reg) (n : Nibble) (s : State) : Host.Outcome State Fault Refusal :=
  let c := drawRows s (s.readReg x).toNat (s.readReg y).toNat n.toNat
  withRange s.i n.toNat (.next (({ s with fb := c.fb } : State).writeFlag c.collided).advance)

end Sys2Proof.Machine
end

