-- ==== Sys2Proof/Machine/Index.lean ====
section
/-! DEFINITION. Index register and memory instructions (42_index_memory.md). None changes `I` as a side effect (R126). -/

namespace Sys2Proof.Machine

/-- `LD I, NNN` (R120). -/
def execLdI (nnn : Addr12) (s : State) : Host.Outcome State Fault Refusal := .next (s.setIndex (zext16 nnn)).advance

/-- `ADD I, Vx`: modulo 65536, no flag (R121, D10). -/
def execAddI (x : Reg) (s : State) : Host.Outcome State Fault Refusal := .next (s.setIndex (s.i + s.regWord x)).advance

/-- `LD F, Vx`: `I <- FONT_BASE + 5 * V[X]`; reads no memory (R122, D14). -/
def execLdF (x : Reg) (s : State) : Host.Outcome State Fault Refusal := .next (s.setIndex (s.glyphAddr (s.readReg x))).advance

/-- `LD B, Vx`: three decimal digits to `I`, `I + 1`, `I + 2` (R123). -/
def execLdB (x : Reg) (s : State) : Host.Outcome State Fault Refusal :=
  withRange s.i 3 (.next (s.storeBytes (s.indexAddr 0) (decimalDigits (s.readReg x))).advance)

/-- `LD [I], Vx`: `V[0]` to `V[X]` to memory at `I`; `I` unchanged (R124, D13). -/
def execStRegs (x : Reg) (s : State) : Host.Outcome State Fault Refusal :=
  withRange s.i (blockLength x) (.next (s.storeBytes (s.indexAddr 0) (s.regBlock x)).advance)

/-- `LD Vx, [I]`: `V[0]` to `V[X]` from memory at `I`; `I` unchanged (R125, D13). -/
def execLdRegs (x : Reg) (s : State) : Host.Outcome State Fault Refusal :=
  withRange s.i (blockLength x) (.next (s.loadBlock (blockLength x)).advance)

end Sys2Proof.Machine
end

