-- ==== Sys2Proof/Machine/Keyboard.lean ====
section
/-! DEFINITION. Keyboard instructions (44_keyboard.md R141 to R143); the notification `KEY` is in Machine/HostOps.lean. -/

namespace Sys2Proof.Machine

/-- `SKP Vx`: skip if the key whose code is `V[X]` is the current key (R141, D16). -/
def execSkp (x : Reg) (s : State) : Host.Outcome State Fault Refusal := .next (s.skipIf (s.pressed (s.readReg x)))

/-- `SKNP Vx`: skip if it is not (R142, D16). -/
def execSknp (x : Reg) (s : State) : Host.Outcome State Fault Refusal := .next (s.skipIf (!s.pressed (s.readReg x)))

/-- `LD Vx, K`: enter `AwaitingKey(X)`; neither `PC` nor `V[X]` is written, and the current key is not looked at (R143). -/
def execLdVxK (x : Reg) (s : State) : Host.Outcome State Fault Refusal :=
  .next { s with isHalted := true, hasPendingKeyWait := true, pendingKeyWaitRegister := x }

end Sys2Proof.Machine
end

