-- ==== Sys2Proof/Machine/Timers.lean ====
section
/-! DEFINITION. Timer instructions (45_timers.md R150 to R152); the ticks are in Machine/HostOps.lean. -/

namespace Sys2Proof.Machine

/-- `LD Vx, DT` (R150). -/
def execLdVxDt (x : Reg) (s : State) : Host.Outcome State Fault Refusal := .next (s.writeReg x s.dt).advance

/-- `LD DT, Vx` (R151). -/
def execLdDtVx (x : Reg) (s : State) : Host.Outcome State Fault Refusal := .next ({ s with dt := s.readReg x } : State).advance

/-- `LD ST, Vx` (R152). -/
def execLdStVx (x : Reg) (s : State) : Host.Outcome State Fault Refusal := .next ({ s with st := s.readReg x } : State).advance

end Sys2Proof.Machine
end

