-- ==== Sys2Proof/Machine/HostOps.lean ====
section
/-! DEFINITION. The host operations other than `STEP`: `KEY`, `TICK_DELAY`, `TICK_SOUND`, `RESET` (44_keyboard.md R144,
45_timers.md R154 and R155, 70_reset_and_hazards.md R180 and R181). -/

namespace Sys2Proof.Machine

/-- `KEY(k)`: record the key; if the core waits, write the key to the waiting register, leave the wait and advance `PC` by
2 (R144). -/
def State.keyPressed (s : State) (k : Nibble) : State :=
  let t : State := { s with keyValid := true, keyCode := k }
  if t.isHalted then
    ({ t.writeReg t.pendingKeyWaitRegister (k.setWidth 8) with isHalted := false, hasPendingKeyWait := false } : State).advance
  else t

/-- A countdown timer's tick: "decrementing the respective timer by one if currently greater than zero" (R154, R155). -/
def countdown (b : Byte) : Byte := if 0 < b.toNat then b - 1#8 else b

/-- `TICK_DELAY` (R154). -/
def State.tickDelay (s : State) : State := { s with dt := countdown s.dt }

/-- `TICK_SOUND` (R155). -/
def State.tickSound (s : State) : State := { s with st := countdown s.st }

/-- The memory after reset: zero, then the font image at 0x000, then the program image at 0x200 (R180). -/
def resetMemory (fontImage programImage : List Byte) : Memory :=
  (Memory.writeBytes [] 0 fontImage).writeBytes programBase.toNat programImage

/-- `RESET(FONT_IMAGE, PROGRAM_IMAGE)`: every element takes its reset value, then the images are copied (R180); an image
over its bound is refused (R181). The model's own fields (the draws, the parameters, what the host does next) are not the
machine's and stay (log 14). -/
def State.resetWith (s : State) (fontImage programImage : List Byte) : Host.Outcome State Fault Refusal :=
  if maxFontImage < fontImage.length then .refused .fontImageTooLong
  else if maxProgramImage < programImage.length then .refused .programImageTooLong
  else .next { State.reset with
    mem := resetMemory fontImage programImage
    rndDraws := s.rndDraws
    config := s.config
    hostOps := s.hostOps }

end Sys2Proof.Machine
end

