-- ==== Sys2Proof/Machine/Sequencer.lean ====
section
/-! DEFINITION. The fetch-decode-execute sequencer: the `STEP` operation (30_encoding.md R70), its result (60_exceptions.md
R160), and the five operations as one (00_scope.md R5). -/

namespace Sys2Proof.Machine

/-- `STEP`: the halt check, the fetch, the decode, the meaning, in this order (R70, R166). A halted core does nothing. -/
def stepInstr (s : State) : Host.Outcome State Fault Refusal :=
  if s.isHalted then .next s
  else
    match s.fetchWord with
    | .error f => raiseFault f
    | .ok w =>
      match decodeWord w with
      | .error _ => raiseFault (.unrecognizedInstruction w)
      | .ok i => exec i s

/-- The result `STEP` reports to the host (R160). -/
def stepResult (s : State) : StepResult :=
  if s.isHalted then .halted
  else
    match stepInstr s with
    | .next _ => .executed
    | .fault f => .fault f
    | .refused r => .refused r

/-- One operation of the host (R5). -/
def transact (op : HostOp) (s : State) : Host.Outcome State Fault Refusal :=
  match op with
  | .step => stepInstr s
  | .key k => .next (s.keyPressed k)
  | .tickDelay => .next s.tickDelay
  | .tickSound => .next s.tickSound
  | .reset fontImage programImage => s.resetWith fontImage programImage

/-- Operations of the host one after another, the core going on after a fault as R169 says it can. -/
def transactAll : List HostOp → State → State
  | [], s => s
  | op :: rest, s => transactAll rest (stateAfter s (transact op s))

end Sys2Proof.Machine
end

