-- ==== Sys2Proof/Machine/Step.lean ====
section
/-! DEFINITION. One step of the machine, and an instruction placed where the next step fetches it. -/

namespace Sys2Proof.Machine

/-- One operation: the next one of the host's (R5), and `STEP` where the host has named none (log 3). -/
def step (s : State) : Host.Outcome State Fault Refusal :=
  match s.hostOps with
  | [] => stepInstr s
  | op :: rest => transact op { s with hostOps := rest }

/-- `s` with a table word stored where `step` fetches its next instruction. The fetch needs that the next operation is a
`STEP`, that the core does not wait for a key, and that `PC` is an address it can fetch from (R41, R70); where one of these
fails it is set so, and nothing else changes (log 4). -/
def State.withFetchWord (s : State) (nbits w : Nat) : State :=
  let pc := if s.pc.toNat ≤ 4094 then s.pc else programBase
  { s with
    pc := pc
    mem := s.mem.writeBytes pc.toNat [highByte (tableWord nbits w), lowByte (tableWord nbits w)]
    isHalted := false
    hasPendingKeyWait := false
    hostOps := [] }

end Sys2Proof.Machine
end

