-- ==== Sys2Proof/Safety.lean ====
section
/-! DEFINITION. The terms claims are stated in: the invariant of a state, what an operation leaves unchanged, a run without
faults, the end of a run (10_state.md R20 and R22, 60_exceptions.md R169, 70_reset_and_hazards.md R186). -/

namespace Sys2Proof.Machine

/-- The invariant of R20, beyond what the types say: memory is canonical and inside the address space, the two key-wait
bits are equal, and no key means code 0. (`0 ≤ SP ≤ 16` and the widths are in the types of `State`.) -/
structure State.Inv (s : State) : Prop where
  mem_wf : s.mem.wf = true
  wait_bits : s.isHalted = s.hasPendingKeyWait
  no_key_code : s.keyValid = false → s.keyCode = 0#4

/-! ## Frames -/

/-- One observable part of the state. -/
inductive StatePart where
  | pc
  | index
  | reg (r : Reg)
  | byte (a : Nat)
  | delay
  | sound
  | depth
  | slot (k : Fin 16)
  | key
  | wait
  | waitReg
  | pixel (p : Fin 2048)
  | draws
  | config
  | hostOps
  deriving DecidableEq, Repr

/-- A part has the same value in two states; memory is compared through the read of one byte. -/
def StatePart.Same (p : StatePart) (s t : State) : Prop :=
  match p with
  | .pc => t.pc = s.pc
  | .index => t.i = s.i
  | .reg r => t.readReg r = s.readReg r
  | .byte a => t.readByte a = s.readByte a
  | .delay => t.dt = s.dt
  | .sound => t.st = s.st
  | .depth => t.sp = s.sp
  | .slot k => t.stack[k] = s.stack[k]
  | .key => t.keyValid = s.keyValid ∧ t.keyCode = s.keyCode
  | .wait => t.isHalted = s.isHalted ∧ t.hasPendingKeyWait = s.hasPendingKeyWait
  | .waitReg => t.pendingKeyWaitRegister = s.pendingKeyWaitRegister
  | .pixel p => t.fb.pixel p = s.fb.pixel p
  | .draws => t.rndDraws = s.rndDraws
  | .config => t.config = s.config
  | .hostOps => t.hostOps = s.hostOps

/-- The frame: every part outside the list is the same in `t` as in `s`, every byte of memory, register, pixel and stack
slot among them. -/
def OnlyChanges (ps : List StatePart) (s t : State) : Prop := ∀ p, p ∉ ps → p.Same s t

/-- The bytes `a` to `a + n - 1`. -/
def bytesFrom (a n : Nat) : List StatePart := (List.range n).map fun k => .byte (a + k)

/-- Registers `V[0]` to `V[n-1]`. -/
def regsBelow (n : Nat) : List StatePart := (List.range n).map fun k => .reg (BitVec.ofNat 4 k)

/-- Every pixel. -/
def allPixels : List StatePart := (List.finRange 2048).map .pixel

/-- How many bytes an instruction touches at `I` and upward: `DRW` reads `N`, `LD B` writes 3, the block transfers move
`X + 1`, "no other instruction touches `mem`" but the fetch (R45). -/
def accessLength : Instr → Nat
  | .drw _ _ n => n.toNat
  | .ldB _ => 3
  | .stRegs x => x.toNat + 1
  | .ldRegs x => x.toNat + 1
  | _ => 0

/-- The general registers an instruction reads as a source (R22, R12): its `X` or `Y` operand where the operand is a source, `V[0]`
for `JP V0`, `V[0]` to `V[X]` for `LD [I], Vx`. The flag is never read as such. -/
def readsRegister : Instr → Reg → Bool
  | .cls _, _ => false
  | .ret _, _ => false
  | .jp _, _ => false
  | .call _, _ => false
  | .seImm x _, r => r == x
  | .sneImm x _, r => r == x
  | .seReg x y _, r => r == x || r == y
  | .ldImm _ _, _ => false
  | .addImm x _, r => r == x
  | .ldReg _ y, r => r == y
  | .orReg x y, r => r == x || r == y
  | .andReg x y, r => r == x || r == y
  | .xorReg x y, r => r == x || r == y
  | .addReg x y, r => r == x || r == y
  | .subReg x y, r => r == x || r == y
  | .shr x _, r => r == x
  | .subnReg x y, r => r == x || r == y
  | .shl x _, r => r == x
  | .sneReg x y _, r => r == x || r == y
  | .ldI _, _ => false
  | .jpV0 _, r => r == 0#4
  | .rnd _ _, _ => false
  | .drw x y _, r => r == x || r == y
  | .skp x, r => r == x
  | .sknp x, r => r == x
  | .ldVxDt _, _ => false
  | .ldVxK _, _ => false
  | .ldDtVx x, r => r == x
  | .ldStVx x, r => r == x
  | .addI x, r => r == x
  | .ldF x, r => r == x
  | .ldB x, r => r == x
  | .stRegs x, r => decide (r.toNat ≤ x.toNat)
  | .ldRegs _, _ => false

/-! ## Runs -/

/-- The next `n` operations all answer a state: no fault, no refusal (R169: a fault is terminal for a run). -/
def faultFree : Nat → State → Bool
  | 0, _ => true
  | n + 1, s =>
    match step s with
    | .next t => faultFree n t
    | .fault _ => false
    | .refused _ => false

/-- The spec's suggested `END_OF_RUN`, a convention and no property of the hardware: the core is not waiting and the word
at `PC` is a `JP` to `PC` (R186, D26; log 13). -/
def endOfRun (s : State) : Bool :=
  !s.isHalted &&
    match s.fetchWord with
    | .error _ => false
    | .ok w =>
      match decodeWord w with
      | .ok (.jp nnn) => zext16 nnn == s.pc
      | _ => false

end Sys2Proof.Machine
end

