-- ==== Sys2Proof/Certificates/Slice0/Obligations.lean ====
section
/-! DEFINITION. The statements about the machine that the provers settle, in the order of OBLIGATIONS.json. Each per-instruction
statement says which word the instruction is (R66), that it completes and in what state, and its frame through `OnlyChanges`:
every register, byte of memory, pixel, stack slot and other part outside the list is as before. The word is that of R66, whose
numbers the spec marks as general knowledge (its decision D2; log 5). "Decision" and "form" below are those of the spec,
92_eei_decisions.md and 93_implementation_defined.md. -/

open Sys2Proof Sys2Proof.Machine

/-! ## Encoding (30_encoding.md) -/

/-- R61: the six fields are bit slices of the word, and they overlap as the rule says. -/
def Obligations.FieldsAreBitSlices : Prop :=
  ∀ w : Word,
    fieldClass w = w.extractLsb' 12 4 ++ 0#12 ∧
    fieldX w = w.extractLsb' 8 4 ∧ fieldY w = w.extractLsb' 4 4 ∧ fieldN w = w.extractLsb' 0 4 ∧
    fieldNN w = w.extractLsb' 0 8 ∧ fieldNNN w = w.extractLsb' 0 12 ∧
    fieldNN w = fieldY w ++ fieldN w ∧ fieldNNN w = fieldX w ++ fieldNN w ∧
    fieldNNN w = fieldX w ++ fieldY w ++ fieldN w

/-- R65 and R66: the two-level lookup is the opcode map: 34 rows, pairwise disjoint, and a word is a row's instruction iff it
meets the row's mask and match. The numbers are the spec's decision D2 (general knowledge, log 5), the sub-discriminants its
decision D3. -/
def Obligations.TwoLevelDecodeIsOpcodeMap : Prop :=
  opcodeRows.length = 34 ∧
  (opcodeRows.Pairwise fun r r' => ∀ w : Word, ¬ (w &&& r.mask = r.bits ∧ w &&& r'.mask = r'.bits)) ∧
  (∀ w : Word, decodeWord w = decodeByRows w) ∧
  ∀ r ∈ opcodeRows, ∀ w : Word, w &&& r.mask = r.bits ↔ decodeWord w = .ok (r.build w)

/-- R68: exactly the listed words decode to no instruction; each fails by its own name, and a running core that fetches one
ends its `STEP` in `UnrecognizedInstruction` with that word. The list is the spec's own inference from R66 (R68 is marked
derived), so it rests on decisions D2 to D4 (log 5). -/
def Obligations.UnrecognizedWordsAreTheListedOnes : Prop :=
  ∀ w : Word,
    ((∀ i, decodeWord w ≠ .ok i) ↔
      (fieldClass w = 0x0000#16 ∧ fieldNN w ∉ [0xE0#8, 0xEE#8]) ∨
      (fieldClass w = 0x8000#16 ∧ fieldN w ∈ [0x8#4, 0x9#4, 0xA#4, 0xB#4, 0xC#4, 0xD#4, 0xF#4]) ∨
      (fieldClass w = 0xE000#16 ∧ fieldNN w ∉ [0x9E#8, 0xA1#8]) ∨
      (fieldClass w = 0xF000#16 ∧
        fieldNN w ∉ [0x07#8, 0x0A#8, 0x15#8, 0x18#8, 0x1E#8, 0x29#8, 0x33#8, 0x55#8, 0x65#8])) ∧
    ((∀ i, decodeWord w ≠ .ok i) → decodeWord w = .error (.unrecognizedInstruction w) ∧
      ∀ s : State, s.isHalted = false → s.fetchWord = .ok w → stepInstr s = .fault (.unrecognizedInstruction w))

/-- Decoding an encoded instruction gives it back, every operand and every ignored bit at every value, as a word and as
bytes in memory followed by anything. -/
def Obligations.DecodeOfEncodeIsIdentity : Prop :=
  ∀ i : Instr, decodeWord (encode i) = .ok i ∧ ∀ rest : List Byte, decodeBytes (encodeBytes i ++ rest) = .ok (i, rest)

/-- No bit of a recognized word is dropped: encoding what a word decodes to gives the word back. For a word with ignored bits set
(0x0EE0, 0x5121) this is the model's choice, log 18: the ignored bits stay in `Instr`. R69 has an assembler emit the canonical word. -/
def Obligations.EncodeOfDecodeIsIdentity : Prop :=
  ∀ (w : Word) (i : Instr), decodeWord w = .ok i → encode i = w

/-- R69: the don't-care bits are ignored by the decoder, have no effect on execution, and are zero in the canonical encodings.
The spec's decision D3 (form U3, log 18). -/
def Obligations.DontCareBitsHaveNoEffect : Prop :=
  (∀ ign : Nibble, decodeWord (wordXNN 0x0#4 ign 0xE0#8) = .ok (.cls ign) ∧
    decodeWord (wordXNN 0x0#4 ign 0xEE#8) = .ok (.ret ign)) ∧
  (∀ x y ign : Nibble, decodeWord (wordXYN 0x5#4 x y ign) = .ok (.seReg x y ign) ∧
    decodeWord (wordXYN 0x9#4 x y ign) = .ok (.sneReg x y ign)) ∧
  (∀ (i : Instr) (s : State), exec i s = exec i.canonical s) ∧
  (∀ x y ign : Nibble,
    encode (Instr.cls ign).canonical = 0x00E0#16 ∧ encode (Instr.ret ign).canonical = 0x00EE#16 ∧
    encode (Instr.seReg x y ign).canonical = wordXYN 0x5#4 x y 0x0#4 ∧
    encode (Instr.sneReg x y ign).canonical = wordXYN 0x9#4 x y 0x0#4 ∧
    encode (Instr.shr x y).canonical = wordXYN 0x8#4 x 0x0#4 0x6#4 ∧
    encode (Instr.shl x y).canonical = wordXYN 0x8#4 x 0x0#4 0xE#4)

/-- Sanity: words written out bit by bit from R66, one or more of every family, decode to the instruction they stand for. The
numbers are general knowledge (decision D2, log 5). -/
def Obligations.SampleWordsDecode : Prop :=
  decodeWord 0b0000111011100000#16 = .ok (.cls 0xE#4) ∧
  decodeWord 0b0010101010111100#16 = .ok (.call 0xABC#12) ∧
  decodeWord 0b0011101001111111#16 = .ok (.seImm 0xA#4 0x7F#8) ∧
  decodeWord 0b1000101010110111#16 = .ok (.subnReg 0xA#4 0xB#4) ∧
  decodeWord 0b1010001011110000#16 = .ok (.ldI 0x2F0#12) ∧
  decodeWord 0b1101101010110101#16 = .ok (.drw 0xA#4 0xB#4 0x5#4) ∧
  decodeWord 0b1110000110100001#16 = .ok (.sknp 0x1#4) ∧
  decodeWord 0b1111000100010101#16 = .ok (.ldDtVx 0x1#4) ∧
  decodeWord 0b1111000101100101#16 = .ok (.ldRegs 0x1#4)

/-! ## The single step (R70, R41, R160 to R169) -/

/-- A step runs the decoded instruction: when the host's next operation is a `STEP` (or it has named none), the core is not
waiting, and the two bytes at `PC` decode to `i`, the step is exactly `exec i`. The step adds nothing around it: the meaning
itself advances `PC` (R14). That `State.hostOps` says what the host invokes, and that an empty list means `STEP`, is the model's
choice, log 3. -/
def Obligations.StepRunsDecodedInstruction : Prop :=
  ∀ (s : State) (i : Instr), s.isHalted = false → s.pc.toNat ≤ 4094 →
    decodeBytes [s.readByte s.pc.toNat, s.readByte (s.pc.toNat + 1)] = .ok (i, []) →
    (s.hostOps = [] → step s = exec i s) ∧
    ∀ rest, s.hostOps = .step :: rest → step s = exec i { s with hostOps := rest }

/-- R41: the fetched word has the byte at `PC` as its high byte and the byte at `PC + 1` as its low byte; above 4094 the
`STEP` of a running core raises `OutOfRangeAccess` with `PC`, or with 4096 at `PC = 4095`. The range check is the spec's
decision D11. -/
def Obligations.FetchIsHighByteFirst : Prop :=
  ∀ s : State,
    (s.pc.toNat ≤ 4094 → ∃ w, s.fetchWord = .ok w ∧
      w.toNat = (s.readByte s.pc.toNat).toNat * 256 + (s.readByte (s.pc.toNat + 1)).toNat) ∧
    (s.isHalted = false → s.pc.toNat = 4095 → stepInstr s = .fault (.outOfRangeAccess 4096#16)) ∧
    (s.isHalted = false → 4096 ≤ s.pc.toNat → stepInstr s = .fault (.outOfRangeAccess s.pc))

/-- R160: every `STEP` ends with exactly one of `EXECUTED`, `HALTED` and a fault, and says which; it is never refused. The
other operations never fault. The three results and their names are the spec's decision D12. -/
def Obligations.StepEndsWithOneOfThreeResults : Prop :=
  (∀ s : State,
    (stepResult s = .halted ↔ s.isHalted = true) ∧
    (stepResult s = .executed ↔ s.isHalted = false ∧ ∃ t, stepInstr s = .next t) ∧
    (∀ f, stepResult s = .fault f ↔ stepInstr s = .fault f) ∧
    (∀ r, stepResult s ≠ .refused r) ∧
    (stepResult s = .halted ∨ stepResult s = .executed ∨ ∃ f, stepResult s = .fault f)) ∧
  ∀ (op : HostOp) (s : State) (f : Fault), op ≠ .step → transact op s ≠ .fault f

/-- R161: the four faults, their codes and `info`, and exactly when each ends a `STEP`; nothing else raises a fault. Names,
codes and `info` are the spec's decision D12, the address check its decisions D10 and D11. -/
def Obligations.FaultsAreRaisedExactlyAsListed : Prop :=
  (∀ w : Word, (Fault.unrecognizedInstruction w).code = 1 ∧ (Fault.unrecognizedInstruction w).info = w ∧
    (Fault.outOfRangeAccess w).code = 4 ∧ (Fault.outOfRangeAccess w).info = w) ∧
  Fault.stackOverflow.code = 2 ∧ Fault.stackOverflow.info = 0#16 ∧
  Fault.stackUnderflow.code = 3 ∧ Fault.stackUnderflow.info = 0#16 ∧
  ∀ (s : State) (f : Fault), stepInstr s = .fault f ↔
    s.isHalted = false ∧
    ((4094 < s.pc.toNat ∧ f = .outOfRangeAccess (if 4096 ≤ s.pc.toNat then s.pc else 4096#16)) ∨
     ∃ w, s.fetchWord = .ok w ∧
      (((∀ i, decodeWord w ≠ .ok i) ∧ f = .unrecognizedInstruction w) ∨
       ∃ i, decodeWord w = .ok i ∧
        (((∃ nnn, i = .call nnn) ∧ s.sp.val = 16 ∧ f = .stackOverflow) ∨
         ((∃ ign, i = .ret ign) ∧ s.sp.val = 0 ∧ f = .stackUnderflow) ∨
         (0 < accessLength i ∧ 4095 < s.i.toNat + accessLength i - 1 ∧
          f = .outOfRangeAccess (if 4096 ≤ s.i.toNat then s.i else 4096#16)))))

/-- R166: the order of the checks: the halt check comes first, whatever `PC` holds; then the fetch range; then the decode;
then the instruction. The order is the spec's decision D12. -/
def Obligations.ChecksAreMadeInOrder : Prop :=
  ∀ s : State,
    (s.isHalted = true → stepInstr s = .next s ∧ stepResult s = .halted) ∧
    (s.isHalted = false → 4094 < s.pc.toNat → ∃ a, stepInstr s = .fault (.outOfRangeAccess a)) ∧
    (∀ w, s.isHalted = false → s.fetchWord = .ok w →
      ((∀ i, decodeWord w ≠ .ok i) → stepInstr s = .fault (.unrecognizedInstruction w)) ∧
      ∀ i, decodeWord w = .ok i → stepInstr s = exec i s)

/-- A fault repeats for ever: `STEP` is deterministic apart from the random byte, and no faulting instruction uses it, so the
state after the fault faults again in the same way, whatever bytes have been drawn meanwhile (R169, R165). The spec's decision
D12. -/
def Obligations.FaultingStepFaultsAgain : Prop :=
  ∀ (s : State) (f : Fault), stepInstr s = .fault f →
    stateAfter s (stepInstr s) = s ∧
    (∀ n : Nat, stepInstr { s with rndDraws := n } = .fault f) ∧
    ∀ n : Nat, transactAll (List.replicate n .step) s = s

/-! ## Reset (R24, R180, R181) -/

/-- R24: every element of the state after reset. -/
def Obligations.ResetGivesTheListedValues : Prop :=
  (∀ a, State.reset.readByte a = 0#8) ∧ (∀ r, State.reset.readReg r = 0#8) ∧ State.reset.i = 0x0000#16 ∧
  State.reset.pc = 0x0200#16 ∧ State.reset.dt = 0x00#8 ∧ State.reset.st = 0x00#8 ∧ State.reset.sp.val = 0 ∧
  (∀ k : Fin 16, State.reset.stack[k] = 0x0000#16) ∧ State.reset.keyValid = false ∧ State.reset.keyCode = 0#4 ∧
  State.reset.isHalted = false ∧ State.reset.hasPendingKeyWait = false ∧ State.reset.pendingKeyWaitRegister = 0#4 ∧
  ∀ p, State.reset.fb.pixel p = false

/-- The invariant holds at reset. -/
def Obligations.ResetStateMeetsInvariant : Prop := State.reset.Inv

/-- The operation RESET: images within their bounds are copied to 0x000 and 0x200 onto memory that is zero elsewhere, every
other element takes its reset value, and the invariant holds; a longer image is refused. With no program the first `STEP`
raises `UnrecognizedInstruction(0x0000)`. The bounds are the spec's decision D25. That the model's own three fields stay as they
were is the model's choice, log 14. -/
def Obligations.ResetOperationLoadsImages : Prop :=
  ∀ (s : State) (font program : List Byte),
    (font.length ≤ 512 → program.length ≤ 3584 → ∃ t, transact (.reset font program) s = .next t ∧ t.Inv ∧
      (∀ a, t.readByte a = if a < 0x200 then font[a]?.getD 0#8 else program[a - 0x200]?.getD 0#8) ∧
      (∀ p : StatePart, (∀ a, p ≠ .byte a) → p ≠ .draws → p ≠ .config → p ≠ .hostOps → p.Same State.reset t) ∧
      (∀ p : StatePart, p = .draws ∨ p = .config ∨ p = .hostOps → p.Same s t) ∧
      (program = [] → stepInstr t = .fault (.unrecognizedInstruction 0x0000#16))) ∧
    (512 < font.length ∨ 3584 < program.length → ∃ r, transact (.reset font program) s = .refused r)

/-! ## The invariant, and who writes what -/

/-- HEADLINE. The invariant of R20 is kept by every step from every state: a `STEP` of any instruction, a key, a tick, a
reset. The spec marks the rule (R20) as derived; that memory is canonical is the model's own part of it (log 8). -/
def Obligations.EveryStepKeepsInvariant : Prop :=
  ∀ s t : State, s.Inv → step s = .next t → t.Inv

/-- The write column of the access summary, for `STEP`: whichever part a `STEP` changes, the instruction it ran is one that the
summary names for that part; a general register, one that has it as its destination, or as the flag (R12). `PC` is written by
every instruction but `LD Vx, K`. The spec marks the summary (R22) as derived. -/
def Obligations.StepWritesOnlyAsSummarized : Prop :=
  ∀ s t : State, stepInstr s = .next t → s.isHalted = false → ∃ w i, s.fetchWord = .ok w ∧ decodeWord w = .ok i ∧
    (t.mem ≠ s.mem → ∃ x, i = .ldB x ∨ i = .stRegs x) ∧
    (∀ r, t.readReg r ≠ s.readReg r → ∃ x y n nn,
      i = .ldImm r nn ∨ i = .addImm r nn ∨ i = .ldReg r y ∨ i = .orReg r y ∨ i = .andReg r y ∨ i = .xorReg r y ∨
      i = .rnd r nn ∨ i = .ldVxDt r ∨ (r.toNat ≤ x.toNat ∧ i = .ldRegs x) ∨
      ((r = x ∨ r = vF) ∧ (i = .addReg x y ∨ i = .subReg x y ∨ i = .shr x y ∨ i = .subnReg x y ∨ i = .shl x y)) ∨
      (r = vF ∧ i = .drw x y n)) ∧
    (t.i ≠ s.i → ∃ nnn x, i = .ldI nnn ∨ i = .addI x ∨ i = .ldF x) ∧
    (t.dt ≠ s.dt → ∃ x, i = .ldDtVx x) ∧
    (t.st ≠ s.st → ∃ x, i = .ldStVx x) ∧
    (t.sp ≠ s.sp ∨ t.stack ≠ s.stack → ∃ nnn ign, i = .call nnn ∨ i = .ret ign) ∧
    (t.stack ≠ s.stack → ∃ nnn, i = .call nnn) ∧
    (t.fb ≠ s.fb → ∃ x y n ign, i = .drw x y n ∨ i = .cls ign) ∧
    (t.isHalted ≠ s.isHalted ∨ t.hasPendingKeyWait ≠ s.hasPendingKeyWait ∨
      t.pendingKeyWaitRegister ≠ s.pendingKeyWaitRegister → ∃ x, i = .ldVxK x) ∧
    (t.pc = s.pc → (∃ x, i = .ldVxK x) ∨ (∃ nnn, i = .jp nnn ∨ i = .call nnn ∨ i = .jpV0 nnn) ∨ ∃ ign, i = .ret ign) ∧
    ((∃ x, i = .ldVxK x) → t.pc = s.pc) ∧
    (t.rndDraws ≠ s.rndDraws → ∃ x nn, i = .rnd x nn) ∧
    t.keyValid = s.keyValid ∧ t.keyCode = s.keyCode ∧ t.config = s.config ∧ t.hostOps = s.hostOps

/-- The read column of the access summary: an instruction that the summary does not name as a reader of a part runs the same
whatever that part holds, and leaves every other part the same. Nothing at all reads the sound timer, and no instruction the
key-wait sub-state (`STEP` and `KEY` read it). A general register is read only as a source operand, `V[0]` by `JP V0` and the
block by `LD [I], Vx` too (`readsRegister`, which names no instruction that the summary does not). `PC` is read by `CALL`; the
others read it to advance it at most, and `JP`, `JP V0`, `RET` not even so. The spec marks the summary (R22) as derived. -/
def Obligations.InstructionsReadOnlyAsSummarized : Prop :=
  ∀ (i : Instr) (s t : State), exec i s = .next t →
    (∀ b, ∃ t', exec i { s with st := b } = .next t' ∧ ∀ p : StatePart, p ≠ .sound → p.Same t t') ∧
    ((∀ x, i ≠ .ldVxDt x) → ∀ b, ∃ t', exec i { s with dt := b } = .next t' ∧ ∀ p : StatePart, p ≠ .delay → p.Same t t') ∧
    ((∀ x, i ≠ .skp x ∧ i ≠ .sknp x) → ∀ v c, ∃ t', exec i { s with keyValid := v, keyCode := c } = .next t' ∧
      ∀ p : StatePart, p ≠ .key → p.Same t t') ∧
    ((∀ x y n, i ≠ .drw x y n) → ∀ fb, ∃ t', exec i { s with fb := fb } = .next t' ∧
      ∀ p : StatePart, (∀ q, p ≠ .pixel q) → p.Same t t') ∧
    ((∀ nnn ign, i ≠ .call nnn ∧ i ≠ .ret ign) → ∀ k st, ∃ t', exec i { s with sp := k, stack := st } = .next t' ∧
      ∀ p : StatePart, p ≠ .depth → (∀ j, p ≠ .slot j) → p.Same t t') ∧
    ((∀ x y n, i ≠ .addI x ∧ i ≠ .ldB x ∧ i ≠ .stRegs x ∧ i ≠ .ldRegs x ∧ i ≠ .drw x y n) → ∀ w, ∃ t',
      exec i { s with i := w } = .next t' ∧ ∀ p : StatePart, p ≠ .index → p.Same t t') ∧
    ((∀ x y n, i ≠ .ldRegs x ∧ i ≠ .drw x y n) → ∀ m, ∃ t', exec i { s with mem := m } = .next t' ∧
      ∀ p : StatePart, (∀ a, p ≠ .byte a) → p.Same t t') ∧
    (∀ r b, readsRegister i r = false → ∃ t', exec i (s.writeReg r b) = .next t' ∧
      ∀ p : StatePart, p ≠ .reg r → p.Same t t') ∧
    ((∀ nnn, i ≠ .call nnn) → ∀ w, ∃ t', exec i (s.setPc w) = .next t' ∧ (∀ p : StatePart, p ≠ .pc → p.Same t t') ∧
      ((∃ nnn ign, i = .jp nnn ∨ i = .jpV0 nnn ∨ i = .ret ign) → t'.pc = t.pc)) ∧
    (∀ h w r, ∃ t', exec i { s with isHalted := h, hasPendingKeyWait := w, pendingKeyWaitRegister := r } = .next t' ∧
      ∀ p : StatePart, p ≠ .wait → p ≠ .waitReg → p.Same t t')

/-- The register that a `STEP` leaves as `VF` is the old one unless the instruction is one of the six flag writers, or one
that names register 15 as its destination, or a block load that reaches it (R12). -/
def Obligations.OnlySixInstructionsWriteFlagAsSideEffect : Prop :=
  ∀ (i : Instr) (s t : State), exec i s = .next t → t.readReg vF ≠ s.readReg vF →
    (∃ x y, i = .addReg x y ∨ i = .subReg x y ∨ i = .shr x y ∨ i = .subnReg x y ∨ i = .shl x y) ∨
    (∃ x y n, i = .drw x y n) ∨
    (∃ nn, i = .ldImm vF nn ∨ i = .addImm vF nn ∨ i = .rnd vF nn) ∨
    (∃ y, i = .ldReg vF y ∨ i = .orReg vF y ∨ i = .andReg vF y ∨ i = .xorReg vF y) ∨
    i = .ldVxDt vF ∨ i = .ldRegs vF

/-! ## Host operations (R144 to R146, R154, R155) -/

/-- R144: `KEY(k)` always records the key; a waiting core also gets the key in its waiting register, runs again and advances
`PC` by 2; nothing else changes. -/
def Obligations.KeyRecordsAndResolvesWait : Prop :=
  ∀ (s : State) (k : Nibble), ∃ t, transact (.key k) s = .next t ∧ t.keyValid = true ∧ t.keyCode = k ∧
    (s.isHalted = false → OnlyChanges [.key] s t) ∧
    (s.isHalted = true → (t.readReg s.pendingKeyWaitRegister).toNat = k.toNat ∧ t.isHalted = false ∧
      t.hasPendingKeyWait = false ∧ t.pc.toNat = (s.pc.toNat + 2) % 65536 ∧
      OnlyChanges [.key, .reg s.pendingKeyWaitRegister, .wait, .pc] s t)

/-- R154 and R155: a tick takes one from its own timer if it is above 0, and touches nothing else. That it does so while the core
waits too is the spec's decision D21 (log 25). -/
def Obligations.TicksCountDownToZero : Prop :=
  ∀ s : State,
    (∃ t, transact .tickDelay s = .next t ∧ t.dt.toNat = (if 0 < s.dt.toNat then s.dt.toNat - 1 else 0) ∧
      OnlyChanges [.delay] s t) ∧
    (∃ t, transact .tickSound s = .next t ∧ t.st.toNat = (if 0 < s.st.toNat then s.st.toNat - 1 else 0) ∧
      OnlyChanges [.sound] s t)

/-- R145: the transition table of the key-wait machine, row by row. A `STEP` and a tick while waiting are the spec's decisions
D20 and D21. -/
def Obligations.KeyWaitTransitionTable : Prop :=
  ∀ s : State, s.isHalted = s.hasPendingKeyWait →
    (s.isHalted = false →
      (∀ w x, s.fetchWord = .ok w → decodeWord w = .ok (.ldVxK x) → ∃ t, stepInstr s = .next t ∧
        t.isHalted = true ∧ t.hasPendingKeyWait = true ∧ t.pendingKeyWaitRegister = x ∧ t.pc = s.pc) ∧
      (∀ w i t, s.fetchWord = .ok w → decodeWord w = .ok i → (∀ x, i ≠ .ldVxK x) → stepInstr s = .next t →
        t.isHalted = false ∧ t.hasPendingKeyWait = false) ∧
      (∀ f, stepInstr s = .fault f → stateAfter s (stepInstr s) = s) ∧
      (∀ k, ∃ t, transact (.key k) s = .next t ∧ t.isHalted = false ∧ t.hasPendingKeyWait = false ∧
        t.keyValid = true ∧ t.keyCode = k ∧ OnlyChanges [.key] s t)) ∧
    (s.isHalted = true →
      transact .step s = .next s ∧ stepResult s = .halted ∧
      (∀ k, ∃ t, transact (.key k) s = .next t ∧ t.isHalted = false ∧ t.hasPendingKeyWait = false ∧
        t.keyValid = true ∧ t.keyCode = k ∧ (t.readReg s.pendingKeyWaitRegister).toNat = k.toNat ∧
        t.pc = s.pc + 2#16)) ∧
    (∀ op t, op = .tickDelay ∨ op = .tickSound → transact op s = .next t →
      t.isHalted = s.isHalted ∧ t.hasPendingKeyWait = s.hasPendingKeyWait ∧
      t.pendingKeyWaitRegister = s.pendingKeyWaitRegister) ∧
    (∀ font program t, transact (.reset font program) s = .next t → t.isHalted = false ∧ t.hasPendingKeyWait = false)

/-- HEADLINE. A core that waits for a key leaves the wait only by `KEY` or `RESET`: any run of `STEP`s and ticks, of any
length and order, leaves it waiting with everything but the two timers as it was. The spec marks the rule (R146) as derived;
it rests on its decisions D20 and D21. -/
def Obligations.OnlyKeyOrResetEndsTheWait : Prop :=
  ∀ (s : State) (ops : List HostOp), s.isHalted = true →
    (∀ op ∈ ops, op = .step ∨ op = .tickDelay ∨ op = .tickSound) →
    (transactAll ops s).isHalted = true ∧ OnlyChanges [.delay, .sound] s (transactAll ops s) ∧
    (transactAll ops s).dt.toNat = s.dt.toNat - ops.count .tickDelay ∧
    (transactAll ops s).st.toNat = s.st.toNat - ops.count .tickSound

/-! ## Control transfer (40_control_transfer.md) -/

/-- R80: `JP NNN`. The meaning of the name is the spec's decision D15. -/
def Obligations.JumpSetsPc : Prop :=
  ∀ (nnn : Addr12) (s : State), decodeWord (wordNNN 0x1#4 nnn) = .ok (.jp nnn) ∧
    ∃ t, exec (.jp nnn) s = .next t ∧ t.pc.toNat = nnn.toNat ∧ OnlyChanges [.pc] s t

/-- R83: `JP V0, NNN`: the sum is not reduced modulo 4096. The offset register and the unreduced sum are the spec's decision
D27 (form U9). -/
def Obligations.OffsetJumpAddsV0 : Prop :=
  ∀ (nnn : Addr12) (s : State), decodeWord (wordNNN 0xB#4 nnn) = .ok (.jpV0 nnn) ∧
    ∃ t, exec (.jpV0 nnn) s = .next t ∧ t.pc.toNat = nnn.toNat + (s.readReg 0#4).toNat ∧ OnlyChanges [.pc] s t

/-- R82: `CALL NNN` saves the address of the next instruction in the next free slot; it overflows when 16 are saved. The stack
convention is the spec's decision D9. -/
def Obligations.CallPushesReturnAddress : Prop :=
  ∀ (nnn : Addr12) (s : State), decodeWord (wordNNN 0x2#4 nnn) = .ok (.call nnn) ∧
    (s.sp.val = 16 → exec (.call nnn) s = .fault .stackOverflow) ∧
    ∀ k : Fin 16, s.sp.val = k.val → ∃ t, exec (.call nnn) s = .next t ∧
      t.stack[k].toNat = (s.pc.toNat + 2) % 65536 ∧ t.sp.val = k.val + 1 ∧ t.pc.toNat = nnn.toNat ∧
      OnlyChanges [.pc, .depth, .slot k] s t

/-- R81: `RET` goes to the address saved last, which keeps its slot; it underflows when none is saved. The stack convention is
the spec's decision D9. -/
def Obligations.ReturnPopsReturnAddress : Prop :=
  ∀ (ign : Nibble) (s : State), decodeWord (wordXNN 0x0#4 ign 0xEE#8) = .ok (.ret ign) ∧
    (s.sp.val = 0 → exec (.ret ign) s = .fault .stackUnderflow) ∧
    ∀ k : Fin 16, s.sp.val = k.val + 1 → ∃ t, exec (.ret ign) s = .next t ∧
      t.sp.val = k.val ∧ t.pc = s.stack[k] ∧ OnlyChanges [.pc, .depth] s t

/-- A call and the return from it: the return goes to the instruction after the call and the depth is as before. It rests on
the spec's decision D9. -/
def Obligations.ReturnUndoesCall : Prop :=
  ∀ (nnn : Addr12) (ign : Nibble) (s t u : State), exec (.call nnn) s = .next t →
    u.stack = t.stack → u.sp = t.sp →
    ∃ r, exec (.ret ign) u = .next r ∧ r.pc = s.pc + 2#16 ∧ r.sp = s.sp

/-- R84 and R85: the two immediate skips. What they compare is the spec's decision D15 (log 27). -/
def Obligations.SkipsCompareWithImmediate : Prop :=
  ∀ (x : Reg) (nn : Byte) (s : State),
    decodeWord (wordXNN 0x3#4 x nn) = .ok (.seImm x nn) ∧ decodeWord (wordXNN 0x4#4 x nn) = .ok (.sneImm x nn) ∧
    (∃ t, exec (.seImm x nn) s = .next t ∧ OnlyChanges [.pc] s t ∧
      t.pc.toNat = (s.pc.toNat + if (s.readReg x).toNat = nn.toNat then 4 else 2) % 65536) ∧
    (∃ t, exec (.sneImm x nn) s = .next t ∧ OnlyChanges [.pc] s t ∧
      t.pc.toNat = (s.pc.toNat + if (s.readReg x).toNat = nn.toNat then 2 else 4) % 65536)

/-- R86 and R87: the two register skips; `X = Y` always skips, and never skips. What they compare is the spec's decision D15
(log 27), the ignored nibble its decision D3 (R69, log 18). -/
def Obligations.SkipsCompareRegisters : Prop :=
  ∀ (x y : Reg) (ign : Nibble) (s : State),
    decodeWord (wordXYN 0x5#4 x y ign) = .ok (.seReg x y ign) ∧
    decodeWord (wordXYN 0x9#4 x y ign) = .ok (.sneReg x y ign) ∧
    (∃ t, exec (.seReg x y ign) s = .next t ∧ OnlyChanges [.pc] s t ∧
      t.pc.toNat = (s.pc.toNat + if (s.readReg x).toNat = (s.readReg y).toNat then 4 else 2) % 65536 ∧
      (x = y → t.pc = s.pc + 4#16)) ∧
    (∃ t, exec (.sneReg x y ign) s = .next t ∧ OnlyChanges [.pc] s t ∧
      t.pc.toNat = (s.pc.toNat + if (s.readReg x).toNat = (s.readReg y).toNat then 2 else 4) % 65536 ∧
      (x = y → t.pc = s.pc + 2#16))

/-- The conventional end of a run is an end of `STEP`s: where the word at `PC` is a `JP` to `PC`, the core is not waiting and the
host names no other operation (`hostOps = []`), a step changes nothing, so no number of steps ever stops (R186, R80). With a
`KEY`, a tick or a `RESET` named, the step is that operation instead. The convention is the spec's suggestion D26, no property of
the hardware (log 13); that a step, and every step of `Host.Core.run`, is a `STEP` at an empty list is the model's choice, log 3. -/
def Obligations.SelfJumpChangesNothing : Prop :=
  ∀ s : State, endOfRun s = true → s.hostOps = [] →
    step s = .next s ∧ (∀ n, faultFree n s = true) ∧ ∀ n, Host.Core.run Sys2Proof.core n s = .next s

/-! ## Registers and ALU (41_alu.md) -/

/-- R101, R102 and R103: `LD Vx, NN`, `ADD Vx, NN`, `LD Vx, Vy`; the sum wraps and no flag is written. That no flag is written
is the spec's decision D8. -/
def Obligations.LoadAndAddWriteOneRegister : Prop :=
  ∀ (x y : Reg) (nn : Byte) (s : State),
    decodeWord (wordXNN 0x6#4 x nn) = .ok (.ldImm x nn) ∧ decodeWord (wordXNN 0x7#4 x nn) = .ok (.addImm x nn) ∧
    decodeWord (wordXYN 0x8#4 x y 0x0#4) = .ok (.ldReg x y) ∧
    (∃ t, exec (.ldImm x nn) s = .next t ∧ t.readReg x = nn ∧
      t.pc.toNat = (s.pc.toNat + 2) % 65536 ∧ OnlyChanges [.pc, .reg x] s t) ∧
    (∃ t, exec (.addImm x nn) s = .next t ∧ (t.readReg x).toNat = ((s.readReg x).toNat + nn.toNat) % 256 ∧
      t.pc.toNat = (s.pc.toNat + 2) % 65536 ∧ OnlyChanges [.pc, .reg x] s t) ∧
    (∃ t, exec (.ldReg x y) s = .next t ∧ t.readReg x = s.readReg y ∧
      t.pc.toNat = (s.pc.toNat + 2) % 65536 ∧ OnlyChanges [.pc, .reg x] s t)

/-- R104, R105 and R106: `OR`, `AND`, `XOR`, bit by bit; no flag is written; `X = Y` as the rules say. That no flag is written
is the spec's decision D8. -/
def Obligations.LogicWritesOneRegister : Prop :=
  ∀ (x y : Reg) (s : State),
    decodeWord (wordXYN 0x8#4 x y 0x1#4) = .ok (.orReg x y) ∧ decodeWord (wordXYN 0x8#4 x y 0x2#4) = .ok (.andReg x y) ∧
    decodeWord (wordXYN 0x8#4 x y 0x3#4) = .ok (.xorReg x y) ∧
    (∃ t, exec (.orReg x y) s = .next t ∧ (x = y → t.readReg x = s.readReg x) ∧
      (∀ b < 8, (t.readReg x).getLsbD b = ((s.readReg x).getLsbD b || (s.readReg y).getLsbD b)) ∧
      t.pc.toNat = (s.pc.toNat + 2) % 65536 ∧ OnlyChanges [.pc, .reg x] s t) ∧
    (∃ t, exec (.andReg x y) s = .next t ∧ (x = y → t.readReg x = s.readReg x) ∧
      (∀ b < 8, (t.readReg x).getLsbD b = ((s.readReg x).getLsbD b && (s.readReg y).getLsbD b)) ∧
      t.pc.toNat = (s.pc.toNat + 2) % 65536 ∧ OnlyChanges [.pc, .reg x] s t) ∧
    (∃ t, exec (.xorReg x y) s = .next t ∧ (x = y → t.readReg x = 0#8) ∧
      (∀ b < 8, (t.readReg x).getLsbD b = ((s.readReg x).getLsbD b ^^ (s.readReg y).getLsbD b)) ∧
      t.pc.toNat = (s.pc.toNat + 2) % 65536 ∧ OnlyChanges [.pc, .reg x] s t)

/-- R107: `ADD Vx, Vy`, with the cases of register 15 as operand: form U1, the spec's decision D5 (R100, log 16). That the sum is
kept modulo 256, where the source says "unclamped", is its decision D1 (C1, log 17). -/
def Obligations.AddWritesCarryThenSum : Prop :=
  ∀ (x y : Reg) (s : State), decodeWord (wordXYN 0x8#4 x y 0x4#4) = .ok (.addReg x y) ∧
    ∃ t, exec (.addReg x y) s = .next t ∧ t.pc.toNat = (s.pc.toNat + 2) % 65536 ∧
      OnlyChanges [.pc, .reg x, .reg vF] s t ∧
      let vx := (s.readReg x).toNat
      let vy := (s.readReg y).toNat
      let c := if vx + vy > 255 then 1 else 0
      (x ≠ vF → y ≠ vF → (t.readReg x).toNat = (vx + vy) % 256 ∧ (t.readReg vF).toNat = c) ∧
      (x = vF → y ≠ vF → (t.readReg vF).toNat = (c + vy) % 256) ∧
      (x ≠ vF → y = vF → (t.readReg vF).toNat = c ∧ (t.readReg x).toNat = (vx + c) % 256) ∧
      (x = vF → y = vF → (t.readReg vF).toNat = 2 * c)

/-- R109: `SUB Vx, Vy`: the flag is a borrow; with the cases of register 15 as operand. The polarity is the spec's decision
D6, register 15 as operand its decision D5 (form U1). -/
def Obligations.SubWritesBorrowThenDifference : Prop :=
  ∀ (x y : Reg) (s : State), decodeWord (wordXYN 0x8#4 x y 0x5#4) = .ok (.subReg x y) ∧
    ∃ t, exec (.subReg x y) s = .next t ∧ t.pc.toNat = (s.pc.toNat + 2) % 65536 ∧
      OnlyChanges [.pc, .reg x, .reg vF] s t ∧
      let vx := (s.readReg x).toNat
      let vy := (s.readReg y).toNat
      let b := if vx < vy then 1 else 0
      (x ≠ vF → y ≠ vF → (t.readReg x).toNat = (vx + 256 - vy) % 256 ∧ (t.readReg vF).toNat = b) ∧
      (x = vF → y ≠ vF → (t.readReg vF).toNat = (b + 256 - vy) % 256) ∧
      (x ≠ vF → y = vF → (t.readReg vF).toNat = b ∧ (t.readReg x).toNat = (vx + 256 - b) % 256) ∧
      (x = vF → y = vF → (t.readReg vF).toNat = 0)

/-- R111: `SUBN Vx, Vy`: the flag is 0 when `V[X] < V[Y]`, else 1; with the cases of register 15 as operand. The polarity is
the spec's decision D6, register 15 as operand its decision D5 (form U1). -/
def Obligations.SubnWritesFlagThenDifference : Prop :=
  ∀ (x y : Reg) (s : State), decodeWord (wordXYN 0x8#4 x y 0x7#4) = .ok (.subnReg x y) ∧
    ∃ t, exec (.subnReg x y) s = .next t ∧ t.pc.toNat = (s.pc.toNat + 2) % 65536 ∧
      OnlyChanges [.pc, .reg x, .reg vF] s t ∧
      let vx := (s.readReg x).toNat
      let vy := (s.readReg y).toNat
      let f := if vx < vy then 0 else 1
      (x ≠ vF → y ≠ vF → (t.readReg x).toNat = (vy + 256 - vx) % 256 ∧ (t.readReg vF).toNat = f) ∧
      (x = vF → y ≠ vF → (t.readReg vF).toNat = (vy + 256 - f) % 256) ∧
      (x ≠ vF → y = vF → (t.readReg vF).toNat = f ∧ (t.readReg x).toNat = (f + 256 - vx) % 256) ∧
      (x = vF → y = vF → (t.readReg vF).toNat = 0)

/-- R108: `SHR Vx`: shifts `V[X]` in place whatever `Y` is; `X = 15` ends with 0. Register 15 as operand is form U1,
the spec's decision D5 (R100, log 16). -/
def Obligations.ShiftRightWritesLowBit : Prop :=
  ∀ (x y : Reg) (s : State), decodeWord (wordXYN 0x8#4 x y 0x6#4) = .ok (.shr x y) ∧
    ∃ t, exec (.shr x y) s = .next t ∧ t.pc.toNat = (s.pc.toNat + 2) % 65536 ∧
      OnlyChanges [.pc, .reg x, .reg vF] s t ∧
      (x ≠ vF → (t.readReg x).toNat = (s.readReg x).toNat / 2 ∧ (t.readReg vF).toNat = (s.readReg x).toNat % 2) ∧
      (x = vF → (t.readReg vF).toNat = 0)

/-- R110: `SHL Vx`: shifts `V[X]` in place whatever `Y` is; `X = 15` ends with twice the bit shifted out. The instruction is
the spec's decision D7, register 15 as operand its decision D5 (form U1). -/
def Obligations.ShiftLeftWritesHighBit : Prop :=
  ∀ (x y : Reg) (s : State), decodeWord (wordXYN 0x8#4 x y 0xE#4) = .ok (.shl x y) ∧
    ∃ t, exec (.shl x y) s = .next t ∧ t.pc.toNat = (s.pc.toNat + 2) % 65536 ∧
      OnlyChanges [.pc, .reg x, .reg vF] s t ∧
      (x ≠ vF → (t.readReg x).toNat = (s.readReg x).toNat * 2 % 256 ∧
        (t.readReg vF).toNat = (s.readReg x).toNat / 128) ∧
      (x = vF → (t.readReg vF).toNat = 2 * ((s.readReg x).toNat / 128))

/-- R113: `RND Vx, NN` stores the fresh byte of this execution ANDed with `NN`. The byte is the free value of log 1, of which
nothing is known; exactly one is drawn, and none by any other instruction. That the byte is free is the spec's decision D19.
-/
def Obligations.RandomStoreMasksFreshByte : Prop :=
  ∀ (x : Reg) (nn : Byte) (s : State), decodeWord (wordXNN 0xC#4 x nn) = .ok (.rnd x nn) ∧
    ∃ (t : State) (rnd : Byte), exec (.rnd x nn) s = .next t ∧ rnd = Config.rndByte s.rndDraws ∧
      (∀ b < 8, (t.readReg x).getLsbD b = (rnd.getLsbD b && nn.getLsbD b)) ∧
      t.rndDraws = s.rndDraws + 1 ∧ t.pc.toNat = (s.pc.toNat + 2) % 65536 ∧
      OnlyChanges [.pc, .reg x, .draws] s t ∧
      ∀ (i : Instr) (u : State), (∀ x' nn', i ≠ .rnd x' nn') → exec i s = .next u → u.rndDraws = s.rndDraws

/-! ## Index register and memory (42_index_memory.md) -/

/-- R120, R121 and R122: `LD I, NNN`, `ADD I, Vx`, `LD F, Vx`. The sums are kept in 16 bits; no flag is written; no memory is
read. `FONT_BASE` is the parameter of log 2, by default 0x000. Sixteen bits and no flag are the spec's decision D10; base,
stride and the unmasked digit its decision D14 (form U2). -/
def Obligations.IndexRegisterWrites : Prop :=
  ∀ (nnn : Addr12) (x : Reg) (s : State),
    decodeWord (wordNNN 0xA#4 nnn) = .ok (.ldI nnn) ∧ decodeWord (wordXNN 0xF#4 x 0x1E#8) = .ok (.addI x) ∧
    decodeWord (wordXNN 0xF#4 x 0x29#8) = .ok (.ldF x) ∧
    (∃ t, exec (.ldI nnn) s = .next t ∧ t.i.toNat = nnn.toNat ∧
      t.pc.toNat = (s.pc.toNat + 2) % 65536 ∧ OnlyChanges [.pc, .index] s t) ∧
    (∃ t, exec (.addI x) s = .next t ∧ t.i.toNat = (s.i.toNat + (s.readReg x).toNat) % 65536 ∧
      t.pc.toNat = (s.pc.toNat + 2) % 65536 ∧ OnlyChanges [.pc, .index] s t) ∧
    (∃ t, exec (.ldF x) s = .next t ∧
      t.i.toNat = (s.config.fontBase.toNat + 5 * (s.readReg x).toNat) % 65536 ∧
      t.pc.toNat = (s.pc.toNat + 2) % 65536 ∧ OnlyChanges [.pc, .index] s t) ∧
    State.reset.config.fontBase = 0x000#16

/-- R123: `LD B, Vx` writes the three decimal digits, and no other byte. That out of range it faults and writes nothing is form
U10, the spec's decisions D10 and D12 (R44, R165; log 20). -/
def Obligations.DecimalDigitsAreStored : Prop :=
  ∀ (x : Reg) (s : State), s.mem.wf = true → decodeWord (wordXNN 0xF#4 x 0x33#8) = .ok (.ldB x) ∧
    (s.i.toNat + 2 ≤ 4095 → ∃ t, exec (.ldB x) s = .next t ∧
      (t.readByte (s.indexAddr 0)).toNat = (s.readReg x).toNat / 100 ∧
      (t.readByte (s.indexAddr 1)).toNat = (s.readReg x).toNat / 10 % 10 ∧
      (t.readByte (s.indexAddr 2)).toNat = (s.readReg x).toNat % 10 ∧
      t.pc.toNat = (s.pc.toNat + 2) % 65536 ∧ OnlyChanges (.pc :: bytesFrom (s.indexAddr 0) 3) s t) ∧
    (4095 < s.i.toNat + 2 →
      exec (.ldB x) s = .fault (.outOfRangeAccess (if 4096 ≤ s.i.toNat then s.i else 4096#16)))

/-- R124: `LD [I], Vx` stores `V[0]` to `V[X]`, and no other byte; `I` is unchanged; out of range it writes nothing. The block
is the spec's decision D13 (form U10). -/
def Obligations.RegistersAreStored : Prop :=
  ∀ (x : Reg) (s : State), s.mem.wf = true → decodeWord (wordXNN 0xF#4 x 0x55#8) = .ok (.stRegs x) ∧
    (s.i.toNat + x.toNat ≤ 4095 → ∃ t, exec (.stRegs x) s = .next t ∧
      (∀ r : Reg, r.toNat ≤ x.toNat → t.readByte (s.indexAddr r.toNat) = s.readReg r) ∧
      t.pc.toNat = (s.pc.toNat + 2) % 65536 ∧
      OnlyChanges (.pc :: bytesFrom (s.indexAddr 0) (x.toNat + 1)) s t) ∧
    (4095 < s.i.toNat + x.toNat →
      exec (.stRegs x) s = .fault (.outOfRangeAccess (if 4096 ≤ s.i.toNat then s.i else 4096#16)))

/-- R125: `LD Vx, [I]` loads `V[0]` to `V[X]`, and no other register; `I` and memory are unchanged; out of range it loads
nothing. The block is the spec's decision D13 (form U10). -/
def Obligations.RegistersAreLoaded : Prop :=
  ∀ (x : Reg) (s : State), decodeWord (wordXNN 0xF#4 x 0x65#8) = .ok (.ldRegs x) ∧
    (s.i.toNat + x.toNat ≤ 4095 → ∃ t, exec (.ldRegs x) s = .next t ∧
      (∀ r : Reg, r.toNat ≤ x.toNat → t.readReg r = s.readByte (s.indexAddr r.toNat)) ∧
      t.pc.toNat = (s.pc.toNat + 2) % 65536 ∧
      OnlyChanges (.pc :: regsBelow (x.toNat + 1)) s t) ∧
    (4095 < s.i.toNat + x.toNat →
      exec (.ldRegs x) s = .fault (.outOfRangeAccess (if 4096 ≤ s.i.toNat then s.i else 4096#16)))

/-- A store is seen by the next fetch, whichever of the two storing instructions made it and however the stored bytes overlap the
word at the new `PC`: both its bytes stored, only the low one, or only the high one, the other as it was before the store (R53).
The spec's decision D29 (log 26). -/
def Obligations.NextFetchSeesStore : Prop :=
  ∀ (x : Reg) (s t : State), s.mem.wf = true →
    (exec (.stRegs x) s = .next t →
      (t.pc.toNat + 1 = s.indexAddr 0 → t.fetchWord = .ok (s.readByte t.pc.toNat ++ s.readReg 0#4)) ∧
      (∀ r r' : Reg, r.toNat + 1 = r'.toNat → r'.toNat ≤ x.toNat → t.pc.toNat = s.indexAddr r.toNat →
        t.fetchWord = .ok (s.readReg r ++ s.readReg r')) ∧
      (t.pc.toNat = s.indexAddr x.toNat → t.pc.toNat ≤ 4094 →
        t.fetchWord = .ok (s.readReg x ++ s.readByte (t.pc.toNat + 1)))) ∧
    (exec (.ldB x) s = .next t →
      let v := (s.readReg x).toNat
      (t.pc.toNat + 1 = s.indexAddr 0 → ∃ w, t.fetchWord = .ok w ∧
        w.toNat = (s.readByte t.pc.toNat).toNat * 256 + v / 100) ∧
      (t.pc.toNat = s.indexAddr 0 → ∃ w, t.fetchWord = .ok w ∧ w.toNat = v / 100 * 256 + v / 10 % 10) ∧
      (t.pc.toNat = s.indexAddr 1 → ∃ w, t.fetchWord = .ok w ∧ w.toNat = v / 10 % 10 * 256 + v % 10) ∧
      (t.pc.toNat = s.indexAddr 2 → t.pc.toNat ≤ 4094 → ∃ w, t.fetchWord = .ok w ∧
        w.toNat = v % 10 * 256 + (s.readByte (t.pc.toNat + 1)).toNat))

/-- Storing a block and loading it back gives every register of the block its old value. It rests on the spec's decision D13.
-/
def Obligations.StoreThenLoadRestoresRegisters : Prop :=
  ∀ (x : Reg) (s t u : State), s.mem.wf = true → exec (.stRegs x) s = .next t → u.mem = t.mem → u.i = t.i →
    ∃ r, exec (.ldRegs x) u = .next r ∧ ∀ k : Reg, k.toNat ≤ x.toNat → r.readReg k = s.readReg k

/-! ## Display (43_display.md) -/

/-- R130: `CLS` clears every pixel and writes no flag. -/
def Obligations.ClearScreenClearsEveryPixel : Prop :=
  ∀ (ign : Nibble) (s : State), decodeWord (wordXNN 0x0#4 ign 0xE0#8) = .ok (.cls ign) ∧
    ∃ t, exec (.cls ign) s = .next t ∧ (∀ p, t.fb.pixel p = false) ∧
      t.pc.toNat = (s.pc.toNat + 2) % 65536 ∧ OnlyChanges (.pc :: allPixels) s t

/-- R132, with R131 and R133: `DRW` XORs each sprite bit into its wrapped pixel, leaves every other pixel, and makes `VF` 1
exactly if some set pixel met a sprite bit 1; the coordinates are the registers' values before `VF` is written; out of range
it draws nothing. The wrap at the edges, the flag 0 and the order of its write are the spec's decision D17 (forms U4, U5,
U11). -/
def Obligations.DrawXorsSpriteAndReportsCollision : Prop :=
  ∀ (x y : Reg) (n : Nibble) (s : State), decodeWord (wordXYN 0xD#4 x y n) = .ok (.drw x y n) ∧
    (n.toNat = 0 ∨ s.i.toNat + n.toNat - 1 ≤ 4095 → ∃ t, exec (.drw x y n) s = .next t ∧
      (∀ (row col : Nat) (p : Fin 2048), row < n.toNat → col < 8 →
        p.val = ((s.readReg y).toNat + row) % 32 * 64 + ((s.readReg x).toNat + col) % 64 →
        t.fb.pixel p = (s.fb.pixel p ^^ (s.readByte (s.indexAddr row)).getLsbD (7 - col))) ∧
      (∀ p : Fin 2048, (∀ row col : Nat, row < n.toNat → col < 8 →
          p.val ≠ ((s.readReg y).toNat + row) % 32 * 64 + ((s.readReg x).toNat + col) % 64) →
        t.fb.pixel p = s.fb.pixel p) ∧
      ((t.readReg vF = 1#8 ∧ ∃ (row col : Nat) (p : Fin 2048), row < n.toNat ∧ col < 8 ∧
          p.val = ((s.readReg y).toNat + row) % 32 * 64 + ((s.readReg x).toNat + col) % 64 ∧
          s.fb.pixel p = true ∧ (s.readByte (s.indexAddr row)).getLsbD (7 - col) = true) ∨
       (t.readReg vF = 0#8 ∧ ∀ (row col : Nat) (p : Fin 2048), row < n.toNat → col < 8 →
          p.val = ((s.readReg y).toNat + row) % 32 * 64 + ((s.readReg x).toNat + col) % 64 →
          (s.fb.pixel p && (s.readByte (s.indexAddr row)).getLsbD (7 - col)) = false)) ∧
      t.pc.toNat = (s.pc.toNat + 2) % 65536 ∧ OnlyChanges (.pc :: .reg vF :: allPixels) s t) ∧
    (n.toNat ≠ 0 → 4095 < s.i.toNat + n.toNat - 1 →
      exec (.drw x y n) s = .fault (.outOfRangeAccess (if 4096 ≤ s.i.toNat then s.i else 4096#16)))

/-- Drawing the same sprite twice at the same place restores the framebuffer, and the second draw reports a collision exactly
if a sprite bit 1 fell on a pixel that was clear at the start (log 12: the pseudocode of R132 is followed where a corner-case
sentence says more). The second draw runs in any state with the picture the first one left and the same memory, index and
coordinates. It rests on the spec's decision D17. -/
def Obligations.DrawingTwiceRestoresPicture : Prop :=
  ∀ (x y : Reg) (n : Nibble) (s t u v : State), exec (.drw x y n) s = .next t → u.fb = t.fb → u.mem = s.mem → u.i = s.i →
    u.readReg x = s.readReg x → u.readReg y = s.readReg y → exec (.drw x y n) u = .next v →
    v.fb = s.fb ∧ (v.readReg vF = 1#8 ↔ ∃ (row col : Nat) (p : Fin 2048), row < n.toNat ∧ col < 8 ∧
      p.val = ((s.readReg y).toNat + row) % 32 * 64 + ((s.readReg x).toNat + col) % 64 ∧
      s.fb.pixel p = false ∧ (s.readByte (s.indexAddr row)).getLsbD (7 - col) = true)

/-! ## Keyboard and timers (44_keyboard.md, 45_timers.md) -/

/-- R141 and R142: the two key skips compare the current key with all 8 bits of `V[X]`; without a key, and for a value above
15, `SKP` never skips and `SKNP` always does. The test is the spec's decision D16 (form U6). -/
def Obligations.KeySkipsTestCurrentKey : Prop :=
  ∀ (x : Reg) (s : State),
    decodeWord (wordXNN 0xE#4 x 0x9E#8) = .ok (.skp x) ∧ decodeWord (wordXNN 0xE#4 x 0xA1#8) = .ok (.sknp x) ∧
    (∃ t, exec (.skp x) s = .next t ∧ OnlyChanges [.pc] s t ∧ t.pc.toNat = (s.pc.toNat +
      if s.keyValid = true ∧ s.keyCode.toNat = (s.readReg x).toNat then 4 else 2) % 65536 ∧
      (15 < (s.readReg x).toNat → t.pc = s.pc + 2#16)) ∧
    (∃ t, exec (.sknp x) s = .next t ∧ OnlyChanges [.pc] s t ∧ t.pc.toNat = (s.pc.toNat +
      if s.keyValid = true ∧ s.keyCode.toNat = (s.readReg x).toNat then 2 else 4) % 65536 ∧
      (15 < (s.readReg x).toNat → t.pc = s.pc + 4#16))

/-- R143: `LD Vx, K` enters the wait for `V[X]` and writes neither `PC` nor `V[X]`, whatever key was reported before. The `STEP`
that runs it reports `EXECUTED`, those after it `HALTED`. -/
def Obligations.KeyWaitHaltsWithoutAdvancing : Prop :=
  ∀ (x : Reg) (s : State), decodeWord (wordXNN 0xF#4 x 0x0A#8) = .ok (.ldVxK x) ∧
    ∃ t, exec (.ldVxK x) s = .next t ∧ t.isHalted = true ∧ t.hasPendingKeyWait = true ∧ t.pendingKeyWaitRegister = x ∧
      t.pc = s.pc ∧ OnlyChanges [.wait, .waitReg] s t ∧ transact .step t = .next t ∧ stepResult t = .halted ∧
      ∀ w, s.isHalted = false → s.fetchWord = .ok w → decodeWord w = .ok (.ldVxK x) → stepResult s = .executed

/-- R150, R151 and R152: `LD Vx, DT`, `LD DT, Vx`, `LD ST, Vx`. That these are the three, one read and two writes, is the spec's
decision D28 (log 27). -/
def Obligations.TimerLoadsCopy : Prop :=
  ∀ (x : Reg) (s : State),
    decodeWord (wordXNN 0xF#4 x 0x07#8) = .ok (.ldVxDt x) ∧ decodeWord (wordXNN 0xF#4 x 0x15#8) = .ok (.ldDtVx x) ∧
    decodeWord (wordXNN 0xF#4 x 0x18#8) = .ok (.ldStVx x) ∧
    (∃ t, exec (.ldVxDt x) s = .next t ∧ t.readReg x = s.dt ∧
      t.pc.toNat = (s.pc.toNat + 2) % 65536 ∧ OnlyChanges [.pc, .reg x] s t) ∧
    (∃ t, exec (.ldDtVx x) s = .next t ∧ t.dt = s.readReg x ∧
      t.pc.toNat = (s.pc.toNat + 2) % 65536 ∧ OnlyChanges [.pc, .delay] s t) ∧
    (∃ t, exec (.ldStVx x) s = .next t ∧ t.st = s.readReg x ∧
      t.pc.toNat = (s.pc.toNat + 2) % 65536 ∧ OnlyChanges [.pc, .sound] s t)
end

