-- ==== Sys2Proof/Laws/Decode.lean ====
section
/-! SUPPORT. What each field of the Instruction Reader is as a number, and what it reads from a word of each format. -/

namespace Sys2Proof

/-! ### The fields as numbers (R61) -/

theorem fieldClass_toNat (w : Word) : (fieldClass w).toNat = w.toNat / 4096 * 4096 := by
  have h : w &&& 0xF000#16 = (w >>> 12) <<< 12 := by
    apply BitVec.eq_of_getLsbD_eq
    intro i hi
    interval_cases i <;> simp
  rw [fieldClass, h]
  simp only [BitVec.toNat_shiftLeft, BitVec.toNat_ushiftRight, Nat.shiftLeft_eq, Nat.shiftRight_eq_div_pow]
  have := w.isLt
  omega

theorem fieldX_toNat (w : Word) : (fieldX w).toNat = w.toNat / 256 % 16 := by
  have h : fieldX w = w.extractLsb' 8 4 := by
    apply BitVec.eq_of_getLsbD_eq
    intro i hi
    interval_cases i <;> simp [fieldX]
  rw [h, BitVec.extractLsb'_toNat, Nat.shiftRight_eq_div_pow]

theorem fieldY_toNat (w : Word) : (fieldY w).toNat = w.toNat / 16 % 16 := by
  have h : fieldY w = w.extractLsb' 4 4 := by
    apply BitVec.eq_of_getLsbD_eq
    intro i hi
    interval_cases i <;> simp [fieldY]
  rw [h, BitVec.extractLsb'_toNat, Nat.shiftRight_eq_div_pow]

theorem fieldN_toNat (w : Word) : (fieldN w).toNat = w.toNat % 16 := by
  have h : fieldN w = w.extractLsb' 0 4 := by
    apply BitVec.eq_of_getLsbD_eq
    intro i hi
    interval_cases i <;> simp [fieldN]
  rw [h, BitVec.extractLsb'_toNat, Nat.shiftRight_zero]

theorem fieldNN_toNat (w : Word) : (fieldNN w).toNat = w.toNat % 256 := by
  have h : fieldNN w = w.extractLsb' 0 8 := by
    apply BitVec.eq_of_getLsbD_eq
    intro i hi
    interval_cases i <;> simp [fieldNN]
  rw [h, BitVec.extractLsb'_toNat, Nat.shiftRight_zero]

theorem fieldNNN_toNat (w : Word) : (fieldNNN w).toNat = w.toNat % 4096 := by
  have h : fieldNNN w = w.extractLsb' 0 12 := by
    apply BitVec.eq_of_getLsbD_eq
    intro i hi
    interval_cases i <;> simp [fieldNNN]
  rw [h, BitVec.extractLsb'_toNat, Nat.shiftRight_zero]

/-! ### The formats as numbers (R63) -/

theorem toNat_append_eq {m n : Nat} (a : BitVec m) (b : BitVec n) : (a ++ b).toNat = a.toNat * 2 ^ n + b.toNat := by
  rw [BitVec.toNat_append, ← Nat.shiftLeft_add_eq_or_of_lt b.isLt, Nat.shiftLeft_eq]

theorem wordNNN_toNat (c : Nibble) (nnn : Addr12) : (wordNNN c nnn).toNat = c.toNat * 4096 + nnn.toNat :=
  toNat_append_eq c nnn

theorem wordXNN_toNat (c x : Nibble) (nn : Byte) :
    (wordXNN c x nn).toNat = c.toNat * 4096 + x.toNat * 256 + nn.toNat := by
  have h1 := toNat_append_eq c x
  have h2 := toNat_append_eq (c ++ x) nn
  have h3 : (wordXNN c x nn).toNat = (c ++ x ++ nn).toNat := rfl
  omega

theorem wordXYN_toNat (c x y n : Nibble) :
    (wordXYN c x y n).toNat = c.toNat * 4096 + x.toNat * 256 + y.toNat * 16 + n.toNat := by
  have h1 := toNat_append_eq c x
  have h2 := toNat_append_eq (c ++ x) y
  have h3 := toNat_append_eq (c ++ x ++ y) n
  have h4 : (wordXYN c x y n).toNat = (c ++ x ++ y ++ n).toNat := rfl
  omega

/-! ### The fields of a word of each format -/

@[simp] theorem fieldClass_wordNNN (c : Nibble) (nnn : Addr12) : fieldClass (wordNNN c nnn) = BitVec.ofNat 16 (c.toNat * 4096) := by
  apply BitVec.eq_of_toNat_eq
  rw [fieldClass_toNat, wordNNN_toNat, BitVec.toNat_ofNat]
  omega

@[simp] theorem fieldNNN_wordNNN (c : Nibble) (nnn : Addr12) : fieldNNN (wordNNN c nnn) = nnn := by
  apply BitVec.eq_of_toNat_eq
  rw [fieldNNN_toNat, wordNNN_toNat]
  omega

@[simp] theorem fieldClass_wordXNN (c x : Nibble) (nn : Byte) :
    fieldClass (wordXNN c x nn) = BitVec.ofNat 16 (c.toNat * 4096) := by
  apply BitVec.eq_of_toNat_eq
  rw [fieldClass_toNat, wordXNN_toNat, BitVec.toNat_ofNat]
  omega

@[simp] theorem fieldX_wordXNN (c x : Nibble) (nn : Byte) : fieldX (wordXNN c x nn) = x := by
  apply BitVec.eq_of_toNat_eq
  rw [fieldX_toNat, wordXNN_toNat]
  omega

@[simp] theorem fieldNN_wordXNN (c x : Nibble) (nn : Byte) : fieldNN (wordXNN c x nn) = nn := by
  apply BitVec.eq_of_toNat_eq
  rw [fieldNN_toNat, wordXNN_toNat]
  omega

@[simp] theorem fieldClass_wordXYN (c x y n : Nibble) :
    fieldClass (wordXYN c x y n) = BitVec.ofNat 16 (c.toNat * 4096) := by
  apply BitVec.eq_of_toNat_eq
  rw [fieldClass_toNat, wordXYN_toNat, BitVec.toNat_ofNat]
  omega

@[simp] theorem fieldX_wordXYN (c x y n : Nibble) : fieldX (wordXYN c x y n) = x := by
  apply BitVec.eq_of_toNat_eq
  rw [fieldX_toNat, wordXYN_toNat]
  omega

@[simp] theorem fieldY_wordXYN (c x y n : Nibble) : fieldY (wordXYN c x y n) = y := by
  apply BitVec.eq_of_toNat_eq
  rw [fieldY_toNat, wordXYN_toNat]
  omega

@[simp] theorem fieldN_wordXYN (c x y n : Nibble) : fieldN (wordXYN c x y n) = n := by
  apply BitVec.eq_of_toNat_eq
  rw [fieldN_toNat, wordXYN_toNat]
  omega

/-! ### A word from its fields -/

theorem class_digit {w : Word} {c : Nibble} (h : (fieldClass w).toNat = c.toNat * 4096) : w.toNat / 4096 = c.toNat := by
  rw [fieldClass_toNat] at h
  exact Nat.eq_of_mul_eq_mul_right (by decide : 0 < 4096) h

theorem wordNNN_fields {w : Word} {c : Nibble} (h : (fieldClass w).toNat = c.toNat * 4096) : wordNNN c (fieldNNN w) = w := by
  replace h := class_digit h
  rw [← BitVec.toNat_inj]
  rw [wordNNN_toNat, fieldNNN_toNat]
  omega

theorem wordXNN_fields {w : Word} {c : Nibble} (h : (fieldClass w).toNat = c.toNat * 4096) :
    wordXNN c (fieldX w) (fieldNN w) = w := by
  replace h := class_digit h
  rw [← BitVec.toNat_inj]
  rw [wordXNN_toNat, fieldX_toNat, fieldNN_toNat]
  omega

theorem wordXYN_fields {w : Word} {c : Nibble} (h : (fieldClass w).toNat = c.toNat * 4096) :
    wordXYN c (fieldX w) (fieldY w) (fieldN w) = w := by
  replace h := class_digit h
  rw [← BitVec.toNat_inj]
  rw [wordXYN_toNat, fieldX_toNat, fieldY_toNat, fieldN_toNat]
  omega

/-- A word has one of sixteen classes (R61). -/
theorem fieldClass_cases (w : Word) :
    fieldClass w = 0x0000#16 ∨ fieldClass w = 0x1000#16 ∨ fieldClass w = 0x2000#16 ∨ fieldClass w = 0x3000#16 ∨
    fieldClass w = 0x4000#16 ∨ fieldClass w = 0x5000#16 ∨ fieldClass w = 0x6000#16 ∨ fieldClass w = 0x7000#16 ∨
    fieldClass w = 0x8000#16 ∨ fieldClass w = 0x9000#16 ∨ fieldClass w = 0xA000#16 ∨ fieldClass w = 0xB000#16 ∨
    fieldClass w = 0xC000#16 ∨ fieldClass w = 0xD000#16 ∨ fieldClass w = 0xE000#16 ∨ fieldClass w = 0xF000#16 := by
  simp only [← BitVec.toNat_inj, fieldClass_toNat, BitVec.toNat_ofNat]
  have := w.isLt
  omega

/-- A row of R66 whose mask fixes the class and `NN`. -/
theorem mask_classNN_iff {w b : Word} (hb : b &&& 0x0F00#16 = 0#16) :
    w &&& 0xF0FF#16 = b ↔ fieldClass w = fieldClass b ∧ fieldNN w = fieldNN b := by
  constructor
  · rintro rfl
    constructor <;> apply BitVec.eq_of_getLsbD_eq <;> intro i hi <;> interval_cases i <;> simp [fieldClass, fieldNN]
  · rintro ⟨h1, h2⟩
    apply BitVec.eq_of_getLsbD_eq
    intro i hi
    replace h1 := congrArg (BitVec.getLsbD · i) h1
    replace h2 := congrArg (BitVec.getLsbD · i) h2
    replace hb := congrArg (BitVec.getLsbD · i) hb
    interval_cases i <;> simp [fieldClass, fieldNN] at h1 h2 hb ⊢ <;> simp_all

/-- A row of R66 whose mask fixes the class and `N`. -/
theorem mask_classN_iff {w b : Word} (hb : b &&& 0x0FF0#16 = 0#16) :
    w &&& 0xF00F#16 = b ↔ fieldClass w = fieldClass b ∧ fieldN w = fieldN b := by
  constructor
  · rintro rfl
    constructor <;> apply BitVec.eq_of_getLsbD_eq <;> intro i hi <;> interval_cases i <;> simp [fieldClass, fieldN]
  · rintro ⟨h1, h2⟩
    apply BitVec.eq_of_getLsbD_eq
    intro i hi
    replace h1 := congrArg (BitVec.getLsbD · i) h1
    replace h2 := congrArg (BitVec.getLsbD · i) h2
    replace hb := congrArg (BitVec.getLsbD · i) hb
    interval_cases i <;> simp [fieldClass, fieldN] at h1 h2 hb ⊢ <;> simp_all

/-- The two bytes of a word, put together again, are the word (R41). -/
@[simp] theorem wordOfBytes_high_low (w : Word) : wordOfBytes (highByte w) (lowByte w) = w := by
  apply BitVec.eq_of_toNat_eq
  have h : (wordOfBytes (highByte w) (lowByte w)).toNat = (highByte w).toNat * 256 + (lowByte w).toNat :=
    toNat_append_eq (highByte w) (lowByte w)
  have := w.isLt
  rw [h, highByte, lowByte, BitVec.extractLsb'_toNat, BitVec.extractLsb'_toNat, Nat.shiftRight_eq_div_pow, Nat.shiftRight_zero]
  omega

/-- No two rows of the opcode map match the same word: some bit fixed by both differs (R66, "pairwise disjoint"). -/
theorem opcodeRows_disjoint :
    opcodeRows.Pairwise fun r r' => r.bits &&& (r.mask &&& r'.mask) ≠ r'.bits &&& (r.mask &&& r'.mask) := by
  decide

end Sys2Proof
end

