-- ==== Sys2Proof/Laws/State.lean ====
section
/-! SUPPORT. One lemma per field per named update of the state, so that no proof unfolds a record update; then what a
register read and a byte read see of each update. -/

namespace Sys2Proof.Machine

/-! ### `State.writeReg` -/

@[simp] theorem writeReg_mem (s : State) (x : Reg) (b : Byte) :
    (s.writeReg x b).mem = s.mem := rfl
@[simp] theorem writeReg_v (s : State) (x : Reg) (b : Byte) :
    (s.writeReg x b).v = s.v.set x.toNat b := rfl
@[simp] theorem writeReg_i (s : State) (x : Reg) (b : Byte) :
    (s.writeReg x b).i = s.i := rfl
@[simp] theorem writeReg_pc (s : State) (x : Reg) (b : Byte) :
    (s.writeReg x b).pc = s.pc := rfl
@[simp] theorem writeReg_dt (s : State) (x : Reg) (b : Byte) :
    (s.writeReg x b).dt = s.dt := rfl
@[simp] theorem writeReg_st (s : State) (x : Reg) (b : Byte) :
    (s.writeReg x b).st = s.st := rfl
@[simp] theorem writeReg_stack (s : State) (x : Reg) (b : Byte) :
    (s.writeReg x b).stack = s.stack := rfl
@[simp] theorem writeReg_sp (s : State) (x : Reg) (b : Byte) :
    (s.writeReg x b).sp = s.sp := rfl
@[simp] theorem writeReg_keyValid (s : State) (x : Reg) (b : Byte) :
    (s.writeReg x b).keyValid = s.keyValid := rfl
@[simp] theorem writeReg_keyCode (s : State) (x : Reg) (b : Byte) :
    (s.writeReg x b).keyCode = s.keyCode := rfl
@[simp] theorem writeReg_isHalted (s : State) (x : Reg) (b : Byte) :
    (s.writeReg x b).isHalted = s.isHalted := rfl
@[simp] theorem writeReg_hasPendingKeyWait (s : State) (x : Reg) (b : Byte) :
    (s.writeReg x b).hasPendingKeyWait = s.hasPendingKeyWait := rfl
@[simp] theorem writeReg_pendingKeyWaitRegister (s : State) (x : Reg) (b : Byte) :
    (s.writeReg x b).pendingKeyWaitRegister = s.pendingKeyWaitRegister := rfl
@[simp] theorem writeReg_fb (s : State) (x : Reg) (b : Byte) :
    (s.writeReg x b).fb = s.fb := rfl
@[simp] theorem writeReg_rndDraws (s : State) (x : Reg) (b : Byte) :
    (s.writeReg x b).rndDraws = s.rndDraws := rfl
@[simp] theorem writeReg_config (s : State) (x : Reg) (b : Byte) :
    (s.writeReg x b).config = s.config := rfl
@[simp] theorem writeReg_hostOps (s : State) (x : Reg) (b : Byte) :
    (s.writeReg x b).hostOps = s.hostOps := rfl

/-! ### `State.setIndex` -/

@[simp] theorem setIndex_mem (s : State) (w : Word) :
    (s.setIndex w).mem = s.mem := rfl
@[simp] theorem setIndex_v (s : State) (w : Word) :
    (s.setIndex w).v = s.v := rfl
@[simp] theorem setIndex_i (s : State) (w : Word) :
    (s.setIndex w).i = w := rfl
@[simp] theorem setIndex_pc (s : State) (w : Word) :
    (s.setIndex w).pc = s.pc := rfl
@[simp] theorem setIndex_dt (s : State) (w : Word) :
    (s.setIndex w).dt = s.dt := rfl
@[simp] theorem setIndex_st (s : State) (w : Word) :
    (s.setIndex w).st = s.st := rfl
@[simp] theorem setIndex_stack (s : State) (w : Word) :
    (s.setIndex w).stack = s.stack := rfl
@[simp] theorem setIndex_sp (s : State) (w : Word) :
    (s.setIndex w).sp = s.sp := rfl
@[simp] theorem setIndex_keyValid (s : State) (w : Word) :
    (s.setIndex w).keyValid = s.keyValid := rfl
@[simp] theorem setIndex_keyCode (s : State) (w : Word) :
    (s.setIndex w).keyCode = s.keyCode := rfl
@[simp] theorem setIndex_isHalted (s : State) (w : Word) :
    (s.setIndex w).isHalted = s.isHalted := rfl
@[simp] theorem setIndex_hasPendingKeyWait (s : State) (w : Word) :
    (s.setIndex w).hasPendingKeyWait = s.hasPendingKeyWait := rfl
@[simp] theorem setIndex_pendingKeyWaitRegister (s : State) (w : Word) :
    (s.setIndex w).pendingKeyWaitRegister = s.pendingKeyWaitRegister := rfl
@[simp] theorem setIndex_fb (s : State) (w : Word) :
    (s.setIndex w).fb = s.fb := rfl
@[simp] theorem setIndex_rndDraws (s : State) (w : Word) :
    (s.setIndex w).rndDraws = s.rndDraws := rfl
@[simp] theorem setIndex_config (s : State) (w : Word) :
    (s.setIndex w).config = s.config := rfl
@[simp] theorem setIndex_hostOps (s : State) (w : Word) :
    (s.setIndex w).hostOps = s.hostOps := rfl

/-! ### `State.setPc` -/

@[simp] theorem setPc_mem (s : State) (w : Word) :
    (s.setPc w).mem = s.mem := rfl
@[simp] theorem setPc_v (s : State) (w : Word) :
    (s.setPc w).v = s.v := rfl
@[simp] theorem setPc_i (s : State) (w : Word) :
    (s.setPc w).i = s.i := rfl
@[simp] theorem setPc_pc (s : State) (w : Word) :
    (s.setPc w).pc = w := rfl
@[simp] theorem setPc_dt (s : State) (w : Word) :
    (s.setPc w).dt = s.dt := rfl
@[simp] theorem setPc_st (s : State) (w : Word) :
    (s.setPc w).st = s.st := rfl
@[simp] theorem setPc_stack (s : State) (w : Word) :
    (s.setPc w).stack = s.stack := rfl
@[simp] theorem setPc_sp (s : State) (w : Word) :
    (s.setPc w).sp = s.sp := rfl
@[simp] theorem setPc_keyValid (s : State) (w : Word) :
    (s.setPc w).keyValid = s.keyValid := rfl
@[simp] theorem setPc_keyCode (s : State) (w : Word) :
    (s.setPc w).keyCode = s.keyCode := rfl
@[simp] theorem setPc_isHalted (s : State) (w : Word) :
    (s.setPc w).isHalted = s.isHalted := rfl
@[simp] theorem setPc_hasPendingKeyWait (s : State) (w : Word) :
    (s.setPc w).hasPendingKeyWait = s.hasPendingKeyWait := rfl
@[simp] theorem setPc_pendingKeyWaitRegister (s : State) (w : Word) :
    (s.setPc w).pendingKeyWaitRegister = s.pendingKeyWaitRegister := rfl
@[simp] theorem setPc_fb (s : State) (w : Word) :
    (s.setPc w).fb = s.fb := rfl
@[simp] theorem setPc_rndDraws (s : State) (w : Word) :
    (s.setPc w).rndDraws = s.rndDraws := rfl
@[simp] theorem setPc_config (s : State) (w : Word) :
    (s.setPc w).config = s.config := rfl
@[simp] theorem setPc_hostOps (s : State) (w : Word) :
    (s.setPc w).hostOps = s.hostOps := rfl

/-! ### `State.advance` -/

@[simp] theorem advance_mem (s : State) :
    (s.advance).mem = s.mem := rfl
@[simp] theorem advance_v (s : State) :
    (s.advance).v = s.v := rfl
@[simp] theorem advance_i (s : State) :
    (s.advance).i = s.i := rfl
@[simp] theorem advance_pc (s : State) :
    (s.advance).pc = s.pc + 2#16 := rfl
@[simp] theorem advance_dt (s : State) :
    (s.advance).dt = s.dt := rfl
@[simp] theorem advance_st (s : State) :
    (s.advance).st = s.st := rfl
@[simp] theorem advance_stack (s : State) :
    (s.advance).stack = s.stack := rfl
@[simp] theorem advance_sp (s : State) :
    (s.advance).sp = s.sp := rfl
@[simp] theorem advance_keyValid (s : State) :
    (s.advance).keyValid = s.keyValid := rfl
@[simp] theorem advance_keyCode (s : State) :
    (s.advance).keyCode = s.keyCode := rfl
@[simp] theorem advance_isHalted (s : State) :
    (s.advance).isHalted = s.isHalted := rfl
@[simp] theorem advance_hasPendingKeyWait (s : State) :
    (s.advance).hasPendingKeyWait = s.hasPendingKeyWait := rfl
@[simp] theorem advance_pendingKeyWaitRegister (s : State) :
    (s.advance).pendingKeyWaitRegister = s.pendingKeyWaitRegister := rfl
@[simp] theorem advance_fb (s : State) :
    (s.advance).fb = s.fb := rfl
@[simp] theorem advance_rndDraws (s : State) :
    (s.advance).rndDraws = s.rndDraws := rfl
@[simp] theorem advance_config (s : State) :
    (s.advance).config = s.config := rfl
@[simp] theorem advance_hostOps (s : State) :
    (s.advance).hostOps = s.hostOps := rfl

/-! ### `State.skipNext` -/

@[simp] theorem skipNext_mem (s : State) :
    (s.skipNext).mem = s.mem := rfl
@[simp] theorem skipNext_v (s : State) :
    (s.skipNext).v = s.v := rfl
@[simp] theorem skipNext_i (s : State) :
    (s.skipNext).i = s.i := rfl
@[simp] theorem skipNext_pc (s : State) :
    (s.skipNext).pc = s.pc + 4#16 := rfl
@[simp] theorem skipNext_dt (s : State) :
    (s.skipNext).dt = s.dt := rfl
@[simp] theorem skipNext_st (s : State) :
    (s.skipNext).st = s.st := rfl
@[simp] theorem skipNext_stack (s : State) :
    (s.skipNext).stack = s.stack := rfl
@[simp] theorem skipNext_sp (s : State) :
    (s.skipNext).sp = s.sp := rfl
@[simp] theorem skipNext_keyValid (s : State) :
    (s.skipNext).keyValid = s.keyValid := rfl
@[simp] theorem skipNext_keyCode (s : State) :
    (s.skipNext).keyCode = s.keyCode := rfl
@[simp] theorem skipNext_isHalted (s : State) :
    (s.skipNext).isHalted = s.isHalted := rfl
@[simp] theorem skipNext_hasPendingKeyWait (s : State) :
    (s.skipNext).hasPendingKeyWait = s.hasPendingKeyWait := rfl
@[simp] theorem skipNext_pendingKeyWaitRegister (s : State) :
    (s.skipNext).pendingKeyWaitRegister = s.pendingKeyWaitRegister := rfl
@[simp] theorem skipNext_fb (s : State) :
    (s.skipNext).fb = s.fb := rfl
@[simp] theorem skipNext_rndDraws (s : State) :
    (s.skipNext).rndDraws = s.rndDraws := rfl
@[simp] theorem skipNext_config (s : State) :
    (s.skipNext).config = s.config := rfl
@[simp] theorem skipNext_hostOps (s : State) :
    (s.skipNext).hostOps = s.hostOps := rfl

/-! ### `State.skipIf` -/

@[simp] theorem skipIf_mem (s : State) (c : Bool) :
    (s.skipIf c).mem = s.mem := by cases c <;> rfl
@[simp] theorem skipIf_v (s : State) (c : Bool) :
    (s.skipIf c).v = s.v := by cases c <;> rfl
@[simp] theorem skipIf_i (s : State) (c : Bool) :
    (s.skipIf c).i = s.i := by cases c <;> rfl
@[simp] theorem skipIf_pc (s : State) (c : Bool) :
    (s.skipIf c).pc = if c then s.pc + 4#16 else s.pc + 2#16 := by cases c <;> rfl
@[simp] theorem skipIf_dt (s : State) (c : Bool) :
    (s.skipIf c).dt = s.dt := by cases c <;> rfl
@[simp] theorem skipIf_st (s : State) (c : Bool) :
    (s.skipIf c).st = s.st := by cases c <;> rfl
@[simp] theorem skipIf_stack (s : State) (c : Bool) :
    (s.skipIf c).stack = s.stack := by cases c <;> rfl
@[simp] theorem skipIf_sp (s : State) (c : Bool) :
    (s.skipIf c).sp = s.sp := by cases c <;> rfl
@[simp] theorem skipIf_keyValid (s : State) (c : Bool) :
    (s.skipIf c).keyValid = s.keyValid := by cases c <;> rfl
@[simp] theorem skipIf_keyCode (s : State) (c : Bool) :
    (s.skipIf c).keyCode = s.keyCode := by cases c <;> rfl
@[simp] theorem skipIf_isHalted (s : State) (c : Bool) :
    (s.skipIf c).isHalted = s.isHalted := by cases c <;> rfl
@[simp] theorem skipIf_hasPendingKeyWait (s : State) (c : Bool) :
    (s.skipIf c).hasPendingKeyWait = s.hasPendingKeyWait := by cases c <;> rfl
@[simp] theorem skipIf_pendingKeyWaitRegister (s : State) (c : Bool) :
    (s.skipIf c).pendingKeyWaitRegister = s.pendingKeyWaitRegister := by cases c <;> rfl
@[simp] theorem skipIf_fb (s : State) (c : Bool) :
    (s.skipIf c).fb = s.fb := by cases c <;> rfl
@[simp] theorem skipIf_rndDraws (s : State) (c : Bool) :
    (s.skipIf c).rndDraws = s.rndDraws := by cases c <;> rfl
@[simp] theorem skipIf_config (s : State) (c : Bool) :
    (s.skipIf c).config = s.config := by cases c <;> rfl
@[simp] theorem skipIf_hostOps (s : State) (c : Bool) :
    (s.skipIf c).hostOps = s.hostOps := by cases c <;> rfl

/-! ### `State.storeBytes` -/

@[simp] theorem storeBytes_mem (s : State) (a : Nat) (bs : List Byte) :
    (s.storeBytes a bs).mem = s.mem.writeBytes a bs := rfl
@[simp] theorem storeBytes_v (s : State) (a : Nat) (bs : List Byte) :
    (s.storeBytes a bs).v = s.v := rfl
@[simp] theorem storeBytes_i (s : State) (a : Nat) (bs : List Byte) :
    (s.storeBytes a bs).i = s.i := rfl
@[simp] theorem storeBytes_pc (s : State) (a : Nat) (bs : List Byte) :
    (s.storeBytes a bs).pc = s.pc := rfl
@[simp] theorem storeBytes_dt (s : State) (a : Nat) (bs : List Byte) :
    (s.storeBytes a bs).dt = s.dt := rfl
@[simp] theorem storeBytes_st (s : State) (a : Nat) (bs : List Byte) :
    (s.storeBytes a bs).st = s.st := rfl
@[simp] theorem storeBytes_stack (s : State) (a : Nat) (bs : List Byte) :
    (s.storeBytes a bs).stack = s.stack := rfl
@[simp] theorem storeBytes_sp (s : State) (a : Nat) (bs : List Byte) :
    (s.storeBytes a bs).sp = s.sp := rfl
@[simp] theorem storeBytes_keyValid (s : State) (a : Nat) (bs : List Byte) :
    (s.storeBytes a bs).keyValid = s.keyValid := rfl
@[simp] theorem storeBytes_keyCode (s : State) (a : Nat) (bs : List Byte) :
    (s.storeBytes a bs).keyCode = s.keyCode := rfl
@[simp] theorem storeBytes_isHalted (s : State) (a : Nat) (bs : List Byte) :
    (s.storeBytes a bs).isHalted = s.isHalted := rfl
@[simp] theorem storeBytes_hasPendingKeyWait (s : State) (a : Nat) (bs : List Byte) :
    (s.storeBytes a bs).hasPendingKeyWait = s.hasPendingKeyWait := rfl
@[simp] theorem storeBytes_pendingKeyWaitRegister (s : State) (a : Nat) (bs : List Byte) :
    (s.storeBytes a bs).pendingKeyWaitRegister = s.pendingKeyWaitRegister := rfl
@[simp] theorem storeBytes_fb (s : State) (a : Nat) (bs : List Byte) :
    (s.storeBytes a bs).fb = s.fb := rfl
@[simp] theorem storeBytes_rndDraws (s : State) (a : Nat) (bs : List Byte) :
    (s.storeBytes a bs).rndDraws = s.rndDraws := rfl
@[simp] theorem storeBytes_config (s : State) (a : Nat) (bs : List Byte) :
    (s.storeBytes a bs).config = s.config := rfl
@[simp] theorem storeBytes_hostOps (s : State) (a : Nat) (bs : List Byte) :
    (s.storeBytes a bs).hostOps = s.hostOps := rfl

/-! ### `State.writeFlag` -/

@[simp] theorem writeFlag_mem (s : State) (c : Bool) :
    (s.writeFlag c).mem = s.mem := rfl
@[simp] theorem writeFlag_v (s : State) (c : Bool) :
    (s.writeFlag c).v = s.v.set 15 (flagByte c) := rfl
@[simp] theorem writeFlag_i (s : State) (c : Bool) :
    (s.writeFlag c).i = s.i := rfl
@[simp] theorem writeFlag_pc (s : State) (c : Bool) :
    (s.writeFlag c).pc = s.pc := rfl
@[simp] theorem writeFlag_dt (s : State) (c : Bool) :
    (s.writeFlag c).dt = s.dt := rfl
@[simp] theorem writeFlag_st (s : State) (c : Bool) :
    (s.writeFlag c).st = s.st := rfl
@[simp] theorem writeFlag_stack (s : State) (c : Bool) :
    (s.writeFlag c).stack = s.stack := rfl
@[simp] theorem writeFlag_sp (s : State) (c : Bool) :
    (s.writeFlag c).sp = s.sp := rfl
@[simp] theorem writeFlag_keyValid (s : State) (c : Bool) :
    (s.writeFlag c).keyValid = s.keyValid := rfl
@[simp] theorem writeFlag_keyCode (s : State) (c : Bool) :
    (s.writeFlag c).keyCode = s.keyCode := rfl
@[simp] theorem writeFlag_isHalted (s : State) (c : Bool) :
    (s.writeFlag c).isHalted = s.isHalted := rfl
@[simp] theorem writeFlag_hasPendingKeyWait (s : State) (c : Bool) :
    (s.writeFlag c).hasPendingKeyWait = s.hasPendingKeyWait := rfl
@[simp] theorem writeFlag_pendingKeyWaitRegister (s : State) (c : Bool) :
    (s.writeFlag c).pendingKeyWaitRegister = s.pendingKeyWaitRegister := rfl
@[simp] theorem writeFlag_fb (s : State) (c : Bool) :
    (s.writeFlag c).fb = s.fb := rfl
@[simp] theorem writeFlag_rndDraws (s : State) (c : Bool) :
    (s.writeFlag c).rndDraws = s.rndDraws := rfl
@[simp] theorem writeFlag_config (s : State) (c : Bool) :
    (s.writeFlag c).config = s.config := rfl
@[simp] theorem writeFlag_hostOps (s : State) (c : Bool) :
    (s.writeFlag c).hostOps = s.hostOps := rfl

/-! ### `State.tickDelay` -/

@[simp] theorem tickDelay_mem (s : State) :
    (s.tickDelay).mem = s.mem := rfl
@[simp] theorem tickDelay_v (s : State) :
    (s.tickDelay).v = s.v := rfl
@[simp] theorem tickDelay_i (s : State) :
    (s.tickDelay).i = s.i := rfl
@[simp] theorem tickDelay_pc (s : State) :
    (s.tickDelay).pc = s.pc := rfl
@[simp] theorem tickDelay_dt (s : State) :
    (s.tickDelay).dt = countdown s.dt := rfl
@[simp] theorem tickDelay_st (s : State) :
    (s.tickDelay).st = s.st := rfl
@[simp] theorem tickDelay_stack (s : State) :
    (s.tickDelay).stack = s.stack := rfl
@[simp] theorem tickDelay_sp (s : State) :
    (s.tickDelay).sp = s.sp := rfl
@[simp] theorem tickDelay_keyValid (s : State) :
    (s.tickDelay).keyValid = s.keyValid := rfl
@[simp] theorem tickDelay_keyCode (s : State) :
    (s.tickDelay).keyCode = s.keyCode := rfl
@[simp] theorem tickDelay_isHalted (s : State) :
    (s.tickDelay).isHalted = s.isHalted := rfl
@[simp] theorem tickDelay_hasPendingKeyWait (s : State) :
    (s.tickDelay).hasPendingKeyWait = s.hasPendingKeyWait := rfl
@[simp] theorem tickDelay_pendingKeyWaitRegister (s : State) :
    (s.tickDelay).pendingKeyWaitRegister = s.pendingKeyWaitRegister := rfl
@[simp] theorem tickDelay_fb (s : State) :
    (s.tickDelay).fb = s.fb := rfl
@[simp] theorem tickDelay_rndDraws (s : State) :
    (s.tickDelay).rndDraws = s.rndDraws := rfl
@[simp] theorem tickDelay_config (s : State) :
    (s.tickDelay).config = s.config := rfl
@[simp] theorem tickDelay_hostOps (s : State) :
    (s.tickDelay).hostOps = s.hostOps := rfl

/-! ### `State.tickSound` -/

@[simp] theorem tickSound_mem (s : State) :
    (s.tickSound).mem = s.mem := rfl
@[simp] theorem tickSound_v (s : State) :
    (s.tickSound).v = s.v := rfl
@[simp] theorem tickSound_i (s : State) :
    (s.tickSound).i = s.i := rfl
@[simp] theorem tickSound_pc (s : State) :
    (s.tickSound).pc = s.pc := rfl
@[simp] theorem tickSound_dt (s : State) :
    (s.tickSound).dt = s.dt := rfl
@[simp] theorem tickSound_st (s : State) :
    (s.tickSound).st = countdown s.st := rfl
@[simp] theorem tickSound_stack (s : State) :
    (s.tickSound).stack = s.stack := rfl
@[simp] theorem tickSound_sp (s : State) :
    (s.tickSound).sp = s.sp := rfl
@[simp] theorem tickSound_keyValid (s : State) :
    (s.tickSound).keyValid = s.keyValid := rfl
@[simp] theorem tickSound_keyCode (s : State) :
    (s.tickSound).keyCode = s.keyCode := rfl
@[simp] theorem tickSound_isHalted (s : State) :
    (s.tickSound).isHalted = s.isHalted := rfl
@[simp] theorem tickSound_hasPendingKeyWait (s : State) :
    (s.tickSound).hasPendingKeyWait = s.hasPendingKeyWait := rfl
@[simp] theorem tickSound_pendingKeyWaitRegister (s : State) :
    (s.tickSound).pendingKeyWaitRegister = s.pendingKeyWaitRegister := rfl
@[simp] theorem tickSound_fb (s : State) :
    (s.tickSound).fb = s.fb := rfl
@[simp] theorem tickSound_rndDraws (s : State) :
    (s.tickSound).rndDraws = s.rndDraws := rfl
@[simp] theorem tickSound_config (s : State) :
    (s.tickSound).config = s.config := rfl
@[simp] theorem tickSound_hostOps (s : State) :
    (s.tickSound).hostOps = s.hostOps := rfl

/-! ### What a register read and a byte read see -/

@[simp] theorem readByte_writeReg (s : State) (x : Reg) (b : Byte) (k : Nat) :
    (s.writeReg x b).readByte k = s.readByte k := rfl
@[simp] theorem readReg_setIndex (s : State) (w : Word) (r : Reg) :
    (s.setIndex w).readReg r = s.readReg r := rfl
@[simp] theorem readByte_setIndex (s : State) (w : Word) (k : Nat) :
    (s.setIndex w).readByte k = s.readByte k := rfl
@[simp] theorem readReg_setPc (s : State) (w : Word) (r : Reg) :
    (s.setPc w).readReg r = s.readReg r := rfl
@[simp] theorem readByte_setPc (s : State) (w : Word) (k : Nat) :
    (s.setPc w).readByte k = s.readByte k := rfl
@[simp] theorem readReg_advance (s : State) (r : Reg) :
    (s.advance).readReg r = s.readReg r := rfl
@[simp] theorem readByte_advance (s : State) (k : Nat) :
    (s.advance).readByte k = s.readByte k := rfl
@[simp] theorem readReg_skipNext (s : State) (r : Reg) :
    (s.skipNext).readReg r = s.readReg r := rfl
@[simp] theorem readByte_skipNext (s : State) (k : Nat) :
    (s.skipNext).readByte k = s.readByte k := rfl
@[simp] theorem readReg_skipIf (s : State) (c : Bool) (r : Reg) :
    (s.skipIf c).readReg r = s.readReg r := by cases c <;> rfl
@[simp] theorem readByte_skipIf (s : State) (c : Bool) (k : Nat) :
    (s.skipIf c).readByte k = s.readByte k := by cases c <;> rfl
@[simp] theorem readReg_storeBytes (s : State) (a : Nat) (bs : List Byte) (r : Reg) :
    (s.storeBytes a bs).readReg r = s.readReg r := rfl
@[simp] theorem readByte_writeFlag (s : State) (c : Bool) (k : Nat) :
    (s.writeFlag c).readByte k = s.readByte k := rfl
@[simp] theorem readReg_tickDelay (s : State) (r : Reg) :
    (s.tickDelay).readReg r = s.readReg r := rfl
@[simp] theorem readByte_tickDelay (s : State) (k : Nat) :
    (s.tickDelay).readByte k = s.readByte k := rfl
@[simp] theorem readReg_tickSound (s : State) (r : Reg) :
    (s.tickSound).readReg r = s.readReg r := rfl
@[simp] theorem readByte_tickSound (s : State) (k : Nat) :
    (s.tickSound).readByte k = s.readByte k := rfl

/-- A register read after a register write. -/
@[simp] theorem readReg_writeReg (s : State) (x r : Reg) (b : Byte) :
    (s.writeReg x b).readReg r = if r = x then b else s.readReg r := by
  unfold State.readReg State.writeReg
  have hne : x.toNat = r.toNat ↔ r = x := by rw [BitVec.toNat_eq]; exact eq_comm
  simp [Vector.getElem_set, hne]

/-- A register read after the flag is written. -/
@[simp] theorem readReg_writeFlag (s : State) (c : Bool) (r : Reg) :
    (s.writeFlag c).readReg r = if r = vF then flagByte c else s.readReg r :=
  readReg_writeReg s vF r (flagByte c)

/-- A byte read after bytes are stored is a read of the written memory. -/
@[simp] theorem readByte_storeBytes (s : State) (a : Nat) (bs : List Byte) (k : Nat) :
    (s.storeBytes a bs).readByte k = (s.mem.writeBytes a bs).read k := rfl

/-- A flag reads back as 0 or 1. -/
@[simp] theorem flagByte_toNat (c : Bool) : (flagByte c).toNat = if c then 1 else 0 := by cases c <;> rfl

/-! ### What the reads depend on -/

theorem readReg_congr {s t : State} (h : t.v = s.v) (r : Reg) : t.readReg r = s.readReg r := by
  rw [State.readReg, State.readReg]
  simp only [h]

theorem readByte_congr {s t : State} (h : t.mem = s.mem) (a : Nat) : t.readByte a = s.readByte a := by
  rw [State.readByte, h, State.readByte]

end Sys2Proof.Machine
end

