-- ==== Sys2Proof/Laws/Ops.lean ====
section
/-! SUPPORT. For each shared operation, one lemma that says everything it can do; proofs cite it and unfold nothing. -/

namespace Sys2Proof.Machine

/-! ### The range check (R44) -/

theorem rangeFault?_eq_none {base : Word} {len : Nat} :
    rangeFault? base len = none ↔ len = 0 ∨ base.toNat + len ≤ memSize := by
  unfold rangeFault?
  split <;> simp_all

theorem rangeFault?_eq_some {base : Word} {len : Nat} {f : Fault} :
    rangeFault? base len = some f ↔
      (len ≠ 0 ∧ memSize < base.toNat + len) ∧ f = .outOfRangeAccess (if memSize ≤ base.toNat then base else 4096#16) := by
  unfold rangeFault?
  split
  · simp; omega
  · simp only [Option.some.injEq, eq_comm (a := f)]
    constructor
    · intro h; exact ⟨by omega, h⟩
    · exact fun h => h.2

theorem withRange_of_le {base : Word} {len : Nat} (h : len = 0 ∨ base.toNat + len ≤ memSize)
    (body : Host.Outcome State Fault Refusal) : withRange base len body = body := by
  rw [withRange, rangeFault?_eq_none.mpr h]

theorem withRange_of_gt {base : Word} {len : Nat} (h0 : len ≠ 0) (h : memSize < base.toNat + len)
    (body : Host.Outcome State Fault Refusal) :
    withRange base len body = .fault (.outOfRangeAccess (if memSize ≤ base.toNat then base else 4096#16)) := by
  rw [withRange, rangeFault?_eq_some.mpr ⟨⟨h0, h⟩, rfl⟩]
  rfl

/-- What a checked access answers: its body when every address exists, else the fault. -/
theorem withRange_cases (base : Word) (len : Nat) (body : Host.Outcome State Fault Refusal) :
    ((len = 0 ∨ base.toNat + len ≤ memSize) ∧ withRange base len body = body) ∨
    (len ≠ 0 ∧ memSize < base.toNat + len ∧
      withRange base len body = .fault (.outOfRangeAccess (if memSize ≤ base.toNat then base else 4096#16))) := by
  by_cases h : len = 0 ∨ base.toNat + len ≤ memSize
  · exact .inl ⟨h, withRange_of_le h body⟩
  · exact .inr ⟨by omega, by omega, withRange_of_gt (by omega) (by omega) body⟩

/-! ### The fetch (R41) -/

theorem fetchWord_eq_ok {s : State} {w : Word} :
    s.fetchWord = .ok w ↔
      s.pc.toNat ≤ 4094 ∧ w = (s.readByte s.pc.toNat ++ s.readByte (s.pc.toNat + 1) : BitVec (8 + 8)) := by
  unfold State.fetchWord
  cases h : rangeFault? s.pc 2 with
  | none =>
    have := rangeFault?_eq_none.mp h
    simp only [memSize] at this
    simp only [Except.ok.injEq, eq_comm (a := w)]
    exact ⟨fun e => ⟨by omega, e⟩, fun e => e.2⟩
  | some f =>
    have := (rangeFault?_eq_some.mp h).1.2
    simp only [memSize] at this
    simp only [reduceCtorEq, false_iff]
    omega

theorem fetchWord_eq_error {s : State} {f : Fault} :
    s.fetchWord = .error f ↔
      4094 < s.pc.toNat ∧ f = .outOfRangeAccess (if 4096 ≤ s.pc.toNat then s.pc else 4096#16) := by
  unfold State.fetchWord
  cases h : rangeFault? s.pc 2 with
  | none =>
    have := rangeFault?_eq_none.mp h
    simp only [memSize] at this
    simp only [reduceCtorEq, false_iff]
    omega
  | some g =>
    have := rangeFault?_eq_some.mp h
    simp only [memSize] at this
    simp only [Except.error.injEq, this.2, eq_comm (a := f)]
    exact ⟨fun e => ⟨by omega, e⟩, fun e => e.2⟩

/-! ### The call stack (R81, R82) -/

theorem push?_eq_some {s : State} {w : Word} (h : s.sp.val < 16) :
    s.push? w = some { s with stack := s.stack.set s.sp.val w, sp := ⟨s.sp.val + 1, by omega⟩ } := by
  rw [State.push?, dif_pos h]

theorem push?_eq_none {s : State} {w : Word} (h : s.sp.val = 16) : s.push? w = none := by
  rw [State.push?, dif_neg (by omega)]

theorem pop?_eq_some {s : State} (h : 0 < s.sp.val) :
    s.pop? = some (s.stack[s.sp.val - 1]'(by omega), { s with sp := ⟨s.sp.val - 1, by omega⟩ }) := by
  rw [State.pop?, dif_pos h]

theorem pop?_eq_none {s : State} (h : s.sp.val = 0) : s.pop? = none := by
  rw [State.pop?, dif_neg (by omega)]

/-! ### The flag first, then the result (R100) -/

@[simp] theorem flagThenResult_eq (s : State) (flag : Bool) (x : Reg) (result : State → Byte) :
    s.flagThenResult flag x result = ((s.writeFlag flag).writeReg x (result (s.writeFlag flag))).advance := rfl

/-! ### The register block (R124, R125) -/

@[simp] theorem decimalDigits_length (b : Byte) : (decimalDigits b).length = 3 := rfl

@[simp] theorem regBlock_length (s : State) (x : Reg) : (s.regBlock x).length = x.toNat + 1 := by
  simp [State.regBlock, blockLength]

/-- The `k`-th byte of the block is register `k`. -/
theorem regBlock_get (s : State) (x : Reg) {k : Nat} (h : k ≤ x.toNat) :
    (s.regBlock x)[k]? = some (s.readReg (BitVec.ofNat 4 k)) := by
  have hk : k < blockLength x := by simp only [blockLength]; omega
  simp [State.regBlock, List.getElem?_range hk]

/-- Loading the block writes registers and nothing else. -/
theorem loadBlock_eq (s : State) (n : Nat) : ∃ v, s.loadBlock n = { s with v := v } := by
  induction n with
  | zero => exact ⟨s.v, rfl⟩
  | succ n ih =>
    obtain ⟨v, hv⟩ := ih
    exact ⟨v.set (BitVec.ofNat 4 n).toNat (s.readByte (s.indexAddr n)), by rw [State.loadBlock, hv]; rfl⟩

/-- The registers after loading `n` of them. -/
theorem readReg_loadBlock (s : State) {n : Nat} (hn : n ≤ 16) (r : Reg) :
    (s.loadBlock n).readReg r = if r.toNat < n then s.readByte (s.indexAddr r.toNat) else s.readReg r := by
  induction n with
  | zero => simp [State.loadBlock]
  | succ n ih =>
    have hr : r = BitVec.ofNat 4 n ↔ r.toNat = n := by
      rw [← BitVec.toNat_inj, BitVec.toNat_ofNat]; omega
    rw [State.loadBlock, readReg_writeReg, ih (by omega)]
    by_cases h : r.toNat = n
    · rw [if_pos (hr.mpr h), if_pos (by omega), h]
    · rw [if_neg (fun e => h (hr.mp e))]
      by_cases h2 : r.toNat < n
      · rw [if_pos h2, if_pos (by omega)]
      · rw [if_neg h2, if_neg (by omega)]

/-- What is loaded depends on memory and the index register alone. -/
theorem loadBlock_congr {s t : State} (hm : t.mem = s.mem) (hi : t.i = s.i) (hv : t.v = s.v) (n : Nat) :
    t.loadBlock n = { t with v := (s.loadBlock n).v } := by
  induction n with
  | zero => rw [State.loadBlock, State.loadBlock, ← hv]
  | succ n ih => simp only [State.loadBlock, ih, State.writeReg, State.readByte, State.indexAddr, hm, hi]

/-! ### Pixels (R19, R132) -/

/-- A pixel read after a bit is XORed into a cell. -/
@[simp] theorem pixel_xorPixel (fb : Framebuffer) (p q : Fin 2048) (bit : Bool) :
    (fb.xorPixel p bit).pixel q = (fb.pixel q ^^ (decide (q = p) && bit)) := by
  unfold Framebuffer.xorPixel Framebuffer.pixel
  cases bit with
  | false => simp
  | true =>
    by_cases hrow : p.val / 64 = q.val / 64
    · have hq : q.val % 64 < 64 := Nat.mod_lt _ (by decide)
      by_cases hcol : p.val % 64 = q.val % 64
      · have : q = p := by apply Fin.ext; omega
        subst this
        simp [hq]
      · have : q ≠ p := fun e => hcol (by rw [e])
        simp [hrow, this, BitVec.getLsbD_twoPow, hcol]
    · have : q ≠ p := fun e => hrow (by rw [e])
      simp [hrow, this]

/-- A blank framebuffer has no pixel set (R24, R130). -/
@[simp] theorem pixel_blank (p : Fin 2048) : Framebuffer.pixel (Vector.replicate 32 0#64) p = false := by
  simp [Framebuffer.pixel]

@[simp] theorem drawPixel_fb (c : Canvas) (p : Fin 2048) (bit : Bool) : (drawPixel c p bit).fb = c.fb.xorPixel p bit := rfl

@[simp] theorem drawPixel_collided (c : Canvas) (p : Fin 2048) (bit : Bool) :
    (drawPixel c p bit).collided = (c.collided || (c.fb.pixel p && bit)) := rfl

/-! ### A step -/

theorem stepInstr_halted {s : State} (h : s.isHalted = true) : stepInstr s = .next s := by
  rw [stepInstr, if_pos h]

theorem stepInstr_decoded {s : State} {w : Word} {i : Instr} (h : s.isHalted = false) (hf : s.fetchWord = .ok w)
    (hd : decodeWord w = .ok i) : stepInstr s = exec i s := by
  simp [stepInstr, h, hf, hd]

/-- Everything a `STEP` can do (R70, R166). -/
theorem stepInstr_cases (s : State) :
    (s.isHalted = true ∧ stepInstr s = .next s) ∨
    (s.isHalted = false ∧ ∃ f, s.fetchWord = .error f ∧ stepInstr s = .fault f) ∨
    (s.isHalted = false ∧ ∃ w e, s.fetchWord = .ok w ∧ decodeWord w = .error e ∧
      stepInstr s = .fault (.unrecognizedInstruction w)) ∨
    (s.isHalted = false ∧ ∃ w i, s.fetchWord = .ok w ∧ decodeWord w = .ok i ∧ stepInstr s = exec i s) := by
  cases hh : s.isHalted with
  | true => exact .inl ⟨rfl, stepInstr_halted hh⟩
  | false =>
    cases hf : s.fetchWord with
    | error f => exact .inr (.inl ⟨rfl, f, rfl, by simp [stepInstr, hh, hf, raiseFault]⟩)
    | ok w =>
      cases hd : decodeWord w with
      | error e => exact .inr (.inr (.inl ⟨rfl, w, e, rfl, hd, by simp [stepInstr, hh, hf, hd, raiseFault]⟩))
      | ok i => exact .inr (.inr (.inr ⟨rfl, w, i, rfl, hd, stepInstr_decoded hh hf hd⟩))

/-- Everything a step can do: a `STEP`, or the host's next operation (R5). -/
theorem step_cases (s : State) :
    (s.hostOps = [] ∧ step s = stepInstr s) ∨
    (∃ op rest, s.hostOps = op :: rest ∧ step s = transact op { s with hostOps := rest }) := by
  unfold step
  cases s.hostOps with
  | nil => exact .inl ⟨rfl, rfl⟩
  | cons op rest => exact .inr ⟨op, rest, rfl, rfl⟩

end Sys2Proof.Machine
end

