-- ==== Sys2Proof/Laws/Display.lean ====
section
/-! SUPPORT. What drawing some columns, and some rows, of a sprite does to the framebuffer and to the collision (R132, R133). No
two bits of a sprite fall on one pixel, so each pixel is as the old framebuffer and one sprite bit make it. -/

namespace Sys2Proof.Machine

theorem pixelIndex_val (x y : Nat) : (pixelIndex x y).val = y % 32 * 64 + x % 64 := rfl

theorem pixelIndex_inj {x y x' y' : Nat} (h : pixelIndex x y = pixelIndex x' y') : x % 64 = x' % 64 ∧ y % 32 = y' % 32 := by
  have e := congrArg Fin.val h
  rw [pixelIndex_val, pixelIndex_val] at e
  omega

/-- One row: each pixel under a column gets that column's bit, every other pixel stays, and a collision is one of before or one of
a column. -/
theorem drawColumns_spec (c : Canvas) (x y : Nat) (row : Byte) {n : Nat} (hn : n ≤ 8) :
    (∀ col < n, ∀ p, p = pixelIndex (x + col) y →
      (drawColumns c x y row n).fb.pixel p = (c.fb.pixel p ^^ spriteBit row col)) ∧
    (∀ p, (∀ col < n, p ≠ pixelIndex (x + col) y) → (drawColumns c x y row n).fb.pixel p = c.fb.pixel p) ∧
    ((drawColumns c x y row n).collided = true ↔ c.collided = true ∨
      ∃ col < n, c.fb.pixel (pixelIndex (x + col) y) = true ∧ spriteBit row col = true) := by
  induction n with
  | zero => simp [drawColumns]
  | succ n ih =>
    obtain ⟨drawn, kept, hit⟩ := ih (by omega)
    have fresh : ∀ col < n, pixelIndex (x + n) y ≠ pixelIndex (x + col) y := by
      intro col hc h
      have := (pixelIndex_inj h).1
      omega
    refine ⟨fun col hc p hp => ?_, fun p hp => ?_, ?_⟩
    · simp only [drawColumns, drawPixel_fb, pixel_xorPixel]
      rcases Nat.lt_succ_iff_lt_or_eq.mp hc with h | rfl
      · have : p ≠ pixelIndex (x + n) y := hp ▸ (fresh col h).symm
        simp [drawn col h p hp, this]
      · rw [kept p (hp ▸ fresh)]
        simp [hp]
    · simp only [drawColumns, drawPixel_fb, pixel_xorPixel]
      simp [kept p (fun col hc => hp col (by omega)), hp n (by omega)]
    · simp only [drawColumns, drawPixel_collided, Bool.or_eq_true, hit, Bool.and_eq_true, kept _ fresh, or_assoc]
      refine or_congr_right ⟨?_, ?_⟩
      · rintro (⟨col, hc, h⟩ | h)
        · exact ⟨col, by omega, h⟩
        · exact ⟨n, by omega, h⟩
      · rintro ⟨col, hc, h⟩
        rcases Nat.lt_succ_iff_lt_or_eq.mp hc with hc | rfl
        · exact .inl ⟨col, hc, h⟩
        · exact .inr h

/-- The whole sprite so far: as for one row, over rows and columns. -/
theorem drawRows_spec (s : State) (x y : Nat) {n : Nat} (hn : n ≤ 15) :
    (∀ row < n, ∀ col < 8, ∀ p, p = pixelIndex (x + col) (y + row) →
      (drawRows s x y n).fb.pixel p = (s.fb.pixel p ^^ spriteBit (s.readByte (s.indexAddr row)) col)) ∧
    (∀ p, (∀ row < n, ∀ col < 8, p ≠ pixelIndex (x + col) (y + row)) → (drawRows s x y n).fb.pixel p = s.fb.pixel p) ∧
    ((drawRows s x y n).collided = true ↔ ∃ row < n, ∃ col < 8,
      s.fb.pixel (pixelIndex (x + col) (y + row)) = true ∧ spriteBit (s.readByte (s.indexAddr row)) col = true) := by
  induction n with
  | zero => simp [drawRows]
  | succ n ih =>
    obtain ⟨drawn, kept, hit⟩ := ih (by omega)
    obtain ⟨drawn', kept', hit'⟩ := drawColumns_spec (drawRows s x y n) x (y + n) (s.readByte (s.indexAddr n)) (Nat.le_refl 8)
    have fresh : ∀ col' : Nat, ∀ row < n, ∀ col < 8, pixelIndex (x + col') (y + n) ≠ pixelIndex (x + col) (y + row) := by
      intro col' row hr col hc h
      have := (pixelIndex_inj h).2
      omega
    refine ⟨fun row hr col hc p hp => ?_, fun p hp => ?_, ?_⟩
    · simp only [drawRows]
      rcases Nat.lt_succ_iff_lt_or_eq.mp hr with h | rfl
      · rw [kept' p (fun c' _ => hp ▸ (fresh c' row h col hc).symm), drawn row h col hc p hp]
      · rw [drawn' col hc p hp, kept p (hp ▸ fresh col)]
    · simp only [drawRows]
      rw [kept' p (fun col hc => hp n (by omega) col hc), kept p (fun row hr col hc => hp row (by omega) col hc)]
    · simp only [drawRows, hit', hit, kept _ (fresh _)]
      constructor
      · rintro (⟨row, hr, h⟩ | h)
        · exact ⟨row, by omega, h⟩
        · exact ⟨n, by omega, h⟩
      · rintro ⟨row, hr, h⟩
        rcases Nat.lt_succ_iff_lt_or_eq.mp hr with hr | rfl
        · exact .inl ⟨row, hr, h⟩
        · exact .inr h

/-- What is drawn depends on memory, the index register and the framebuffer alone. -/
theorem drawRows_congr {s t : State} (hm : t.mem = s.mem) (hi : t.i = s.i) (hf : t.fb = s.fb) (x y n : Nat) :
    drawRows t x y n = drawRows s x y n := by
  induction n with
  | zero => rw [drawRows, drawRows, hf]
  | succ n ih => simp only [drawRows, ih, State.readByte, State.indexAddr, hm, hi]

end Sys2Proof.Machine
end

