-- ==== Sys2Proof/Laws/Memory.lean ====
section
/-! SUPPORT. The laws of memory: every operation keeps the canonical form, a read sees the last write to its address and
nothing else, and canonical memories that read alike are equal. -/

namespace Sys2Proof.Machine

theorem wfFrom_mono {m : Memory} {lo lo' : Nat} (h : m.wfFrom lo = true) (hle : lo' ≤ lo) : m.wfFrom lo' = true := by
  cases m with
  | nil => rfl
  | cons c rest =>
    obtain ⟨a, v⟩ := c
    simp only [Memory.wfFrom, Bool.and_eq_true, decide_eq_true_eq] at h ⊢
    exact ⟨⟨⟨by omega, h.1.1.2⟩, h.1.2⟩, h.2⟩

/-- Below its lower bound a canonical memory lists nothing. -/
theorem read_below {m : Memory} {lo a : Nat} (h : m.wfFrom lo = true) (ha : a < lo) : m.read a = 0#8 := by
  induction m generalizing lo with
  | nil => rfl
  | cons c rest ih =>
    obtain ⟨b, v⟩ := c
    simp only [Memory.wfFrom, Bool.and_eq_true, decide_eq_true_eq] at h
    have hne : b ≠ a := by omega
    simp only [Memory.read, hne, if_false]
    exact ih h.2 (by omega)

theorem write_wfFrom {m : Memory} {lo a : Nat} (v : Byte) (h : m.wfFrom lo = true) (hlo : lo ≤ a) (ha : a < memSize) :
    (m.write a v).wfFrom lo = true := by
  induction m generalizing lo with
  | nil =>
    unfold Memory.write
    split
    · rfl
    · simp [Memory.wfFrom, *]
  | cons c rest ih =>
    obtain ⟨b, u⟩ := c
    have h' := h
    simp only [Memory.wfFrom, Bool.and_eq_true, decide_eq_true_eq] at h'
    unfold Memory.write
    split
    · split
      · exact h
      · simp only [Memory.wfFrom, Bool.and_eq_true, decide_eq_true_eq]
        refine ⟨⟨⟨hlo, ha⟩, by simpa using ‹¬v = 0#8›⟩, ⟨⟨by omega, h'.1.1.2⟩, h'.1.2⟩, h'.2⟩
    · split
      · subst_vars
        split
        · exact wfFrom_mono h'.2 (by omega)
        · simp only [Memory.wfFrom, Bool.and_eq_true, decide_eq_true_eq]
          exact ⟨⟨⟨hlo, ha⟩, by simpa using ‹¬v = 0#8›⟩, h'.2⟩
      · simp only [Memory.wfFrom, Bool.and_eq_true, decide_eq_true_eq]
        exact ⟨⟨⟨h'.1.1.1, h'.1.1.2⟩, h'.1.2⟩, ih h'.2 (by omega)⟩

/-- A write inside the address space keeps the canonical form. -/
theorem write_wf {m : Memory} {a : Nat} (v : Byte) (h : m.wf = true) (ha : a < memSize) : (m.write a v).wf = true :=
  write_wfFrom v h (Nat.zero_le a) ha

theorem read_write_from {m : Memory} {lo : Nat} (h : m.wfFrom lo = true) (a k : Nat) (v : Byte) :
    (m.write a v).read k = if k = a then v else m.read k := by
  induction m generalizing lo with
  | nil =>
    by_cases hv : v = 0#8
    · simp [Memory.write, Memory.read, hv]
    · simp [Memory.write, Memory.read, hv, @eq_comm _ a k]
  | cons c rest ih =>
    obtain ⟨b, u⟩ := c
    simp only [Memory.wfFrom, Bool.and_eq_true, decide_eq_true_eq] at h
    have below : ∀ j, j ≤ b → Memory.read rest j = 0#8 := fun j hj => read_below h.2 (by omega)
    rcases Nat.lt_trichotomy a b with hab | hab | hab
    · by_cases hv : v = 0#8
      · by_cases hk : k = a
        · have hb : b ≠ a := by omega
          simp [Memory.write, Memory.read, hab, hv, hk, hb, below a (by omega)]
        · simp [Memory.write, hab, hv, hk]
      · simp only [Memory.write, hab, if_true, hv, if_false, Memory.read, @eq_comm _ a k]
    · subst hab
      by_cases hv : v = 0#8
      · by_cases hk : k = a
        · simp [Memory.write, hv, hk, below a (Nat.le_refl a)]
        · simp [Memory.write, Memory.read, hv, hk, @eq_comm _ a k]
      · by_cases hk : k = a
        · simp [Memory.write, Memory.read, hv, hk]
        · simp [Memory.write, Memory.read, hv, hk, @eq_comm _ a k]
    · have h1 : ¬a < b := by omega
      have h2 : ¬a = b := by omega
      simp only [Memory.write, h1, h2, if_false, Memory.read, ih h.2]
      by_cases hb : b = k
      · have hk : ¬k = a := by omega
        simp [hb, hk]
      · simp [hb]

/-- A read after a write to the same address gives the value written; every other address reads as before. -/
theorem read_write {m : Memory} (h : m.wf = true) (a k : Nat) (v : Byte) :
    (m.write a v).read k = if k = a then v else m.read k :=
  read_write_from h a k v

/-- Bytes written inside the address space keep the canonical form. -/
theorem writeBytes_wf {bs : List Byte} {m : Memory} {a : Nat} (h : m.wf = true) (ha : a + bs.length ≤ memSize) :
    (m.writeBytes a bs).wf = true := by
  induction bs generalizing m a with
  | nil => exact h
  | cons b bs ih =>
    simp only [List.length_cons] at ha
    exact ih (write_wf b h (by omega)) (by omega)

/-- What a byte reads after bytes are written: the written byte inside the written range, as before outside it. -/
theorem read_writeBytes {bs : List Byte} {m : Memory} {a : Nat} (h : m.wf = true) (ha : a + bs.length ≤ memSize) (k : Nat) :
    (m.writeBytes a bs).read k = if a ≤ k ∧ k < a + bs.length then bs[k - a]?.getD 0#8 else m.read k := by
  induction bs generalizing m a with
  | nil =>
    have hk : ¬(a ≤ k ∧ k < a + 0) := by omega
    rw [Memory.writeBytes, List.length_nil, if_neg hk]
  | cons b bs ih =>
    simp only [List.length_cons] at ha ⊢
    rw [Memory.writeBytes, ih (write_wf b h (by omega)) (by omega), read_write h]
    by_cases hk : k = a
    · subst hk
      simp
    · by_cases h1 : a + 1 ≤ k ∧ k < a + 1 + bs.length
      · have h2 : a ≤ k ∧ k < a + (bs.length + 1) := by omega
        obtain ⟨d, rfl⟩ : ∃ d, k = a + 1 + d := ⟨k - (a + 1), by omega⟩
        have e1 : a + 1 + d - (a + 1) = d := by omega
        have e2 : a + 1 + d - a = d + 1 := by omega
        simp only [h1, h2, e1, e2]
        simp
      · have h2 : ¬(a ≤ k ∧ k < a + (bs.length + 1)) := by omega
        rw [if_neg h1, if_neg h2, if_neg hk]

/-- An address outside the bytes written reads as before. -/
theorem read_writeBytes_outside {bs : List Byte} {m : Memory} {a k : Nat} (h : m.wf = true)
    (ha : a + bs.length ≤ memSize) (hk : k < a ∨ a + bs.length ≤ k) : (m.writeBytes a bs).read k = m.read k := by
  rw [read_writeBytes h ha, if_neg (by omega)]

theorem read_ext_from {m m' : Memory} {lo : Nat} (h : m.wfFrom lo = true) (h' : m'.wfFrom lo = true)
    (e : ∀ a, m.read a = m'.read a) : m = m' := by
  induction m generalizing m' lo with
  | nil =>
    cases m' with
    | nil => rfl
    | cons c rest =>
      obtain ⟨b, v⟩ := c
      simp only [Memory.wfFrom, Bool.and_eq_true, bne_iff_ne] at h'
      have := e b
      simp [Memory.read] at this
      exact absurd this.symm h'.1.2
  | cons c rest ih =>
    obtain ⟨b, v⟩ := c
    cases m' with
    | nil =>
      simp only [Memory.wfFrom, Bool.and_eq_true, bne_iff_ne] at h
      have := e b
      simp [Memory.read] at this
      exact absurd this h.1.2
    | cons c' rest' =>
      obtain ⟨b', v'⟩ := c'
      simp only [Memory.wfFrom, Bool.and_eq_true, decide_eq_true_eq, bne_iff_ne] at h h'
      have hb : b = b' := by
        by_contra hne
        rcases Nat.lt_or_gt_of_ne hne with hlt | hlt
        · have := e b
          simp only [Memory.read, if_true, Ne.symm hne, if_false] at this
          rw [read_below h'.2 (by omega)] at this
          exact h.1.2 this
        · have := e b'
          simp only [Memory.read, if_true, hne, if_false] at this
          rw [read_below h.2 (by omega)] at this
          exact h'.1.2 this.symm
      subst hb
      have hv : v = v' := by simpa [Memory.read] using e b
      subst hv
      rw [ih h.2 h'.2]
      intro a
      by_cases ha : b = a
      · subst ha
        rw [read_below h.2 (Nat.lt_succ_self b), read_below h'.2 (Nat.lt_succ_self b)]
      · simpa [Memory.read, ha] using e a

/-- Canonical memories that read alike are the same list: equal memories are equal data. -/
theorem read_ext {m m' : Memory} (h : m.wf = true) (h' : m'.wf = true) (e : ∀ a, m.read a = m'.read a) : m = m' :=
  read_ext_from h h' e

end Sys2Proof.Machine
end

