-- ==== Sys2Proof/Laws/Frames.lean ====
section
/-! SUPPORT. Membership in the lists of parts that frames name, frames of no change and of two changes in a row, the frame of a
store, and the ways two framebuffers and two parts can differ. -/

namespace Sys2Proof.Machine

@[simp] theorem mem_bytesFrom {a n b : Nat} : StatePart.byte b ∈ bytesFrom a n ↔ a ≤ b ∧ b < a + n := by
  simp only [bytesFrom, List.mem_map, List.mem_range, StatePart.byte.injEq]
  constructor
  · rintro ⟨k, h, rfl⟩; omega
  · intro h; exact ⟨b - a, by omega, by omega⟩

/-- A part that is no byte is in no range of bytes. -/
theorem not_mem_bytesFrom {p : StatePart} {a n : Nat} (h : ∀ b, p ≠ .byte b) : p ∉ bytesFrom a n := by
  simp only [bytesFrom, List.mem_map, List.mem_range, not_exists, not_and]
  exact fun k _ e => h _ e.symm

@[simp] theorem mem_regsBelow {r : Reg} {n : Nat} (h : n ≤ 16) : StatePart.reg r ∈ regsBelow n ↔ r.toNat < n := by
  simp only [regsBelow, List.mem_map, List.mem_range, StatePart.reg.injEq]
  constructor
  · rintro ⟨k, hk, rfl⟩
    rw [BitVec.toNat_ofNat]
    omega
  · intro hr
    exact ⟨r.toNat, hr, by simp⟩

@[simp] theorem mem_allPixels (p : Fin 2048) : StatePart.pixel p ∈ allPixels := List.mem_map_of_mem (List.mem_finRange p)

theorem onlyChanges_refl (ps : List StatePart) (s : State) : OnlyChanges ps s s := by
  intro p _
  cases p <;> first | rfl | exact ⟨rfl, rfl⟩

theorem onlyChanges_trans {ps : List StatePart} {s t u : State} (h : OnlyChanges ps s t) (h' : OnlyChanges ps t u) :
    OnlyChanges ps s u := by
  intro p hp
  have a := h p hp
  have b := h' p hp
  cases p
  case key => exact ⟨b.1.trans a.1, b.2.trans a.2⟩
  case wait => exact ⟨b.1.trans a.1, b.2.trans a.2⟩
  all_goals exact b.trans a

/-- A store that the range check has passed changes the bytes it stores and nothing else. -/
theorem storeBytes_frame {s : State} {a : Nat} {bs : List Byte} (h : s.mem.wf = true) (ha : a + bs.length ≤ memSize) :
    OnlyChanges (bytesFrom a bs.length) s (s.storeBytes a bs) := by
  intro p hp
  cases p
  case byte b =>
    have hb : ¬ (a ≤ b ∧ b < a + bs.length) := fun e => hp (mem_bytesFrom.mpr e)
    exact read_writeBytes_outside h ha (by omega)
  all_goals first | rfl | exact ⟨rfl, rfl⟩

/-- Two framebuffers with the same pixels are the same data. -/
theorem framebuffer_ext {fb fb' : Framebuffer} (h : ∀ p, fb.pixel p = fb'.pixel p) : fb = fb' := by
  apply Vector.ext
  intro i hi
  apply BitVec.eq_of_getLsbD_eq
  intro j hj
  have e := h ⟨i * 64 + j, by omega⟩
  have h1 : (i * 64 + j) / 64 = i := by omega
  have h2 : (i * 64 + j) % 64 = j := by omega
  simp only [Framebuffer.pixel, h1, h2] at e
  exact e

end Sys2Proof.Machine
end

