-- ==== Sys2Proof/Laws/PerInstr.lean ====
section
/-! SUPPORT. Statements about every instruction as syntax, one lemma per constructor. -/

namespace Sys2Proof.Laws.Canonical

/-- Clearing the ignored bits gives a well-formed instruction, and leaves exactly the well-formed ones as they are (R69). -/
def Statement (i : Instr) : Prop :=
  i.canonical.wellFormed = true ∧ (i.wellFormed = true ↔ i.canonical = i) ∧ i.canonical.canonical = i.canonical

theorem cls (ign : Nibble) : Statement (.cls ign) := by
  simp [Statement, Instr.canonical, Instr.wellFormed, eq_comm (a := 0#4)]

theorem ret (ign : Nibble) : Statement (.ret ign) := by
  simp [Statement, Instr.canonical, Instr.wellFormed, eq_comm (a := 0#4)]

theorem jp (nnn : Addr12) : Statement (.jp nnn) := by
  simp [Statement, Instr.canonical, Instr.wellFormed]

theorem call (nnn : Addr12) : Statement (.call nnn) := by
  simp [Statement, Instr.canonical, Instr.wellFormed]

theorem seImm (x : Reg) (nn : Byte) : Statement (.seImm x nn) := by
  simp [Statement, Instr.canonical, Instr.wellFormed]

theorem sneImm (x : Reg) (nn : Byte) : Statement (.sneImm x nn) := by
  simp [Statement, Instr.canonical, Instr.wellFormed]

theorem seReg (x y : Reg) (ign : Nibble) : Statement (.seReg x y ign) := by
  simp [Statement, Instr.canonical, Instr.wellFormed, eq_comm (a := 0#4)]

theorem ldImm (x : Reg) (nn : Byte) : Statement (.ldImm x nn) := by
  simp [Statement, Instr.canonical, Instr.wellFormed]

theorem addImm (x : Reg) (nn : Byte) : Statement (.addImm x nn) := by
  simp [Statement, Instr.canonical, Instr.wellFormed]

theorem ldReg (x y : Reg) : Statement (.ldReg x y) := by
  simp [Statement, Instr.canonical, Instr.wellFormed]

theorem orReg (x y : Reg) : Statement (.orReg x y) := by
  simp [Statement, Instr.canonical, Instr.wellFormed]

theorem andReg (x y : Reg) : Statement (.andReg x y) := by
  simp [Statement, Instr.canonical, Instr.wellFormed]

theorem xorReg (x y : Reg) : Statement (.xorReg x y) := by
  simp [Statement, Instr.canonical, Instr.wellFormed]

theorem addReg (x y : Reg) : Statement (.addReg x y) := by
  simp [Statement, Instr.canonical, Instr.wellFormed]

theorem subReg (x y : Reg) : Statement (.subReg x y) := by
  simp [Statement, Instr.canonical, Instr.wellFormed]

theorem shr (x y : Reg) : Statement (.shr x y) := by
  simp [Statement, Instr.canonical, Instr.wellFormed, eq_comm (a := 0#4)]

theorem subnReg (x y : Reg) : Statement (.subnReg x y) := by
  simp [Statement, Instr.canonical, Instr.wellFormed]

theorem shl (x y : Reg) : Statement (.shl x y) := by
  simp [Statement, Instr.canonical, Instr.wellFormed, eq_comm (a := 0#4)]

theorem sneReg (x y : Reg) (ign : Nibble) : Statement (.sneReg x y ign) := by
  simp [Statement, Instr.canonical, Instr.wellFormed, eq_comm (a := 0#4)]

theorem ldI (nnn : Addr12) : Statement (.ldI nnn) := by
  simp [Statement, Instr.canonical, Instr.wellFormed]

theorem jpV0 (nnn : Addr12) : Statement (.jpV0 nnn) := by
  simp [Statement, Instr.canonical, Instr.wellFormed]

theorem rnd (x : Reg) (nn : Byte) : Statement (.rnd x nn) := by
  simp [Statement, Instr.canonical, Instr.wellFormed]

theorem drw (x y : Reg) (n : Nibble) : Statement (.drw x y n) := by
  simp [Statement, Instr.canonical, Instr.wellFormed]

theorem skp (x : Reg) : Statement (.skp x) := by
  simp [Statement, Instr.canonical, Instr.wellFormed]

theorem sknp (x : Reg) : Statement (.sknp x) := by
  simp [Statement, Instr.canonical, Instr.wellFormed]

theorem ldVxDt (x : Reg) : Statement (.ldVxDt x) := by
  simp [Statement, Instr.canonical, Instr.wellFormed]

theorem ldVxK (x : Reg) : Statement (.ldVxK x) := by
  simp [Statement, Instr.canonical, Instr.wellFormed]

theorem ldDtVx (x : Reg) : Statement (.ldDtVx x) := by
  simp [Statement, Instr.canonical, Instr.wellFormed]

theorem ldStVx (x : Reg) : Statement (.ldStVx x) := by
  simp [Statement, Instr.canonical, Instr.wellFormed]

theorem addI (x : Reg) : Statement (.addI x) := by
  simp [Statement, Instr.canonical, Instr.wellFormed]

theorem ldF (x : Reg) : Statement (.ldF x) := by
  simp [Statement, Instr.canonical, Instr.wellFormed]

theorem ldB (x : Reg) : Statement (.ldB x) := by
  simp [Statement, Instr.canonical, Instr.wellFormed]

theorem stRegs (x : Reg) : Statement (.stRegs x) := by
  simp [Statement, Instr.canonical, Instr.wellFormed]

theorem ldRegs (x : Reg) : Statement (.ldRegs x) := by
  simp [Statement, Instr.canonical, Instr.wellFormed]

end Sys2Proof.Laws.Canonical
end

