-- ==== Sys2Proof/Tests/Slice0.lean ====
section
/-! SUPPORT. Tests whose expected results are taken from spec/95_test_vectors.md (its section is named before each group), a smoke
test of `Instr.wellFormed`, and for each obligation with hypotheses a named witness that meets them. -/

namespace Sys2Proof.Tests

open Sys2Proof.Machine

/-! ## Small states, and what is looked at in them -/

/-- Reset, with one word at 0x200. -/
def word (w : Nat) : State := State.reset.withFetchWord 16 w

/-- Reset with one word at 0x200 and some registers set. -/
def wordRegs (w : Nat) (rs : List (Nat × Nat)) : State :=
  rs.foldl (fun t p => t.writeReg (BitVec.ofNat 4 p.1) (BitVec.ofNat 8 p.2)) (word w)

/-- The same, with the index register at an address and bytes in memory there. -/
def wordMem (w : Nat) (rs : List (Nat × Nat)) (i : Nat) (bs : List Nat) : State :=
  ((wordRegs w rs).storeBytes i (bs.map (BitVec.ofNat 8))).setIndex (BitVec.ofNat 16 i)

/-- Reset with `PC` at an address and one word there. -/
def wordAt (pc w : Nat) : State := (State.reset.setPc (BitVec.ofNat 16 pc)).withFetchWord 16 w

/-- Reset with `PC` at an address. -/
def pcAt (pc : Nat) : State := State.reset.setPc (BitVec.ofNat 16 pc)

/-- Reset with `n` return addresses saved, each `w`. -/
def depth (s : State) (n : Fin 17) (w : Nat) : State := { s with sp := n, stack := Vector.replicate 16 (BitVec.ofNat 16 w) }

/-- A core that waits for a key for register `x`. -/
def waiting (x : Nat) : State := { State.reset with isHalted := true, hasPendingKeyWait := true, pendingKeyWaitRegister := BitVec.ofNat 4 x }

/-- A state with every pixel set. -/
def lit (s : State) : State := { s with fb := Vector.replicate 32 (BitVec.allOnes 64) }

/-- A state after one step. -/
def after (s : State) : State := stateAfter s (step s)

/-- The fault a step ends in. -/
def faultOf (s : State) : Option Fault :=
  match step s with
  | .fault f => some f
  | _ => none

/-- Registers, as numbers. -/
def regs (s : State) (ks : List Nat) : List Nat := ks.map fun k => (s.readReg (BitVec.ofNat 4 k)).toNat

/-- Bytes of memory, as numbers. -/
def bytes (s : State) (a n : Nat) : List Nat := (List.range n).map fun k => (s.readByte (a + k)).toNat

/-- The columns of a row whose pixels are set. -/
def litColumns (s : State) (y : Nat) : List Nat := (List.range 64).filter fun x => s.fb.pixel (pixelIndex x y)

/-! ## Decoding (section 2.1): every constructor, by a word written out from the encoding of 30_encoding.md R66 -/

theorem test_decode_display : decodeWord 0b0000000011100000#16 = .ok (.cls 0) ∧ decodeWord 0x0EE0#16 = .ok (.cls 0xE) ∧
    decodeWord 0b1101101010110101#16 = .ok (.drw 0xA 0xB 5) := by decide

theorem test_decode_control : decodeWord 0x00EE#16 = .ok (.ret 0) ∧ decodeWord 0x07EE#16 = .ok (.ret 7) ∧
    decodeWord 0b0001001000110100#16 = .ok (.jp 0x234) ∧ decodeWord 0x2ABC#16 = .ok (.call 0xABC) ∧
    decodeWord 0xB300#16 = .ok (.jpV0 0x300) := by decide

theorem test_decode_skips : decodeWord 0x3A7F#16 = .ok (.seImm 0xA 0x7F) ∧ decodeWord 0x4A7F#16 = .ok (.sneImm 0xA 0x7F) ∧
    decodeWord 0b0101101010110000#16 = .ok (.seReg 0xA 0xB 0) ∧ decodeWord 0x5AB7#16 = .ok (.seReg 0xA 0xB 7) ∧
    decodeWord 0x9AB0#16 = .ok (.sneReg 0xA 0xB 0) ∧ decodeWord 0x9ABF#16 = .ok (.sneReg 0xA 0xB 0xF) := by decide

theorem test_decode_immediates : decodeWord 0b0110101000111100#16 = .ok (.ldImm 0xA 0x3C) ∧
    decodeWord 0x7A01#16 = .ok (.addImm 0xA 0x01) ∧ decodeWord 0xC30F#16 = .ok (.rnd 3 0x0F) := by decide

theorem test_decode_class8 : decodeWord 0x8AB0#16 = .ok (.ldReg 0xA 0xB) ∧ decodeWord 0x8AB1#16 = .ok (.orReg 0xA 0xB) ∧
    decodeWord 0x8AB2#16 = .ok (.andReg 0xA 0xB) ∧ decodeWord 0x8AB3#16 = .ok (.xorReg 0xA 0xB) ∧
    decodeWord 0b1000101010110100#16 = .ok (.addReg 0xA 0xB) ∧ decodeWord 0x8AB5#16 = .ok (.subReg 0xA 0xB) ∧
    decodeWord 0x8AB6#16 = .ok (.shr 0xA 0xB) ∧ decodeWord 0x8AB7#16 = .ok (.subnReg 0xA 0xB) ∧
    decodeWord 0x8ABE#16 = .ok (.shl 0xA 0xB) := by decide

theorem test_decode_index : decodeWord 0b1010001011110000#16 = .ok (.ldI 0x2F0) ∧ decodeWord 0xF11E#16 = .ok (.addI 1) ∧
    decodeWord 0xF129#16 = .ok (.ldF 1) ∧ decodeWord 0xF133#16 = .ok (.ldB 1) ∧ decodeWord 0xF155#16 = .ok (.stRegs 1) ∧
    decodeWord 0xF165#16 = .ok (.ldRegs 1) := by decide

theorem test_decode_keys_timers : decodeWord 0b1110000110011110#16 = .ok (.skp 1) ∧ decodeWord 0xE1A1#16 = .ok (.sknp 1) ∧
    decodeWord 0xF107#16 = .ok (.ldVxDt 1) ∧ decodeWord 0xF10A#16 = .ok (.ldVxK 1) ∧ decodeWord 0xF115#16 = .ok (.ldDtVx 1) ∧
    decodeWord 0xF118#16 = .ok (.ldStVx 1) := by decide

theorem test_decode_unrecognized :
    [0x0000#16, 0x00E1#16, 0x0123#16, 0x8AB8#16, 0x8AB9#16, 0x8ABA#16, 0x8ABB#16, 0x8ABC#16, 0x8ABD#16, 0x8ABF#16, 0xE19F#16,
      0xE000#16, 0xE1FF#16, 0xF100#16, 0xF175#16, 0xF185#16, 0xF1FF#16, 0xFFFF#16].all
      (fun w => decide (decodeWord w = .error (.unrecognizedInstruction w))) = true := by decide

theorem test_decode_table_word : decodeTableWord 16 0xD015 = some (.drw 0 1 5) ∧ decodeTableWord 16 0x8008 = none ∧
    decodeBytes [0xA2#8] = .error .truncated := by decide

/-- Section E1 of the vectors. -/
theorem test_fields : fieldClass 0xABCD#16 = 0xA000#16 ∧ fieldX 0xABCD#16 = 0xB ∧ fieldY 0xABCD#16 = 0xC ∧ fieldN 0xABCD#16 = 0xD ∧
    fieldNN 0xABCD#16 = 0xCD ∧ fieldNNN 0xABCD#16 = 0xBCD := by decide

/-! ## Well-formedness: one ill-formed instruction for each check, and what it is in canonical form (R69) -/

theorem test_illFormed_cls : (Instr.cls 0xE).wellFormed = false ∧ (Instr.cls 0xE).canonical.wellFormed = true := by decide
theorem test_illFormed_ret : (Instr.ret 7).wellFormed = false ∧ (Instr.ret 7).canonical.wellFormed = true := by decide
theorem test_illFormed_seReg : (Instr.seReg 1 2 1).wellFormed = false ∧ encode (Instr.seReg 1 2 1).canonical = 0x5120#16 := by decide
theorem test_illFormed_sneReg : (Instr.sneReg 1 2 0xF).wellFormed = false ∧ encode (Instr.sneReg 1 2 0xF).canonical = 0x9120#16 := by
  decide
theorem test_illFormed_shr : (Instr.shr 1 2).wellFormed = false ∧ encode (Instr.shr 1 2).canonical = 0x8106#16 := by decide
theorem test_illFormed_shl : (Instr.shl 1 2).wellFormed = false ∧ encode (Instr.shl 1 2).canonical = 0x810E#16 := by decide
theorem test_wellFormed_drw : (Instr.drw 0xF 0xF 0xF).wellFormed = true := by decide

/-! ## Control transfer (section 2.2) -/

theorem test_jp : (after (word 0x1234)).pc = 0x234#16 ∧ (after (word 0x1FFF)).pc = 0xFFF#16 := by decide
theorem test_jp_to_itself : after (word 0x1200) = word 0x1200 := by decide
theorem test_call : (after (wordAt 0xFFE 0x2300)).stack[0] = 0x1000#16 ∧ (after (wordAt 0xFFE 0x2300)).pc = 0x300#16 ∧
    (after (depth (word 0x2300) 15 0)).stack[15] = 0x202#16 ∧ (after (depth (word 0x2300) 15 0)).sp = 16 := by decide
theorem test_call_overflow : faultOf (depth (word 0x2300) 16 0) = some .stackOverflow := by decide
theorem test_ret : (after (depth (word 0x00EE) 16 0xABC)).pc = 0xABC#16 ∧ (after (depth (word 0x00EE) 16 0xABC)).sp = 15 ∧
    (after (depth (word 0x07EE) 1 0x300)).pc = 0x300#16 ∧ (after (depth (word 0x00EE) 2 6)).stack[1] = 6#16 := by decide
theorem test_ret_underflow : faultOf (word 0x00EE) = some .stackUnderflow := by decide
theorem test_jpV0 : (after (wordRegs 0xBFFF [(0, 0xFF)])).pc = 0x10FE#16 ∧ (after (wordRegs 0xB300 [(0, 4), (3, 9)])).pc = 0x304#16 := by
  decide
theorem test_seImm : (after (wordRegs 0x332A [(3, 0x2A)])).pc = 0x204#16 ∧ (after (wordRegs 0x332A [(3, 0x2B)])).pc = 0x202#16 := by
  decide
theorem test_sneImm : (after (wordRegs 0x432A [(3, 0x2A)])).pc = 0x202#16 ∧ (after (wordRegs 0x432A [(3, 0)])).pc = 0x204#16 := by
  decide
theorem test_seReg : (after (wordRegs 0x512F [(1, 7), (2, 7)])).pc = 0x204#16 ∧ (after (wordRegs 0x5120 [(1, 7), (2, 8)])).pc = 0x202#16 :=
  by decide
theorem test_sneReg : (after (wordRegs 0x9120 [(1, 7), (2, 8)])).pc = 0x204#16 ∧ (after (wordRegs 0x9120 [(1, 7), (2, 7)])).pc = 0x202#16 :=
  by decide
theorem test_skip_off_the_end : (after (wordAt 0xFFC 0x3100)).pc = 0x1000#16 ∧
    faultOf (after (wordAt 0xFFC 0x3100)) = some (.outOfRangeAccess 0x1000#16) := by decide

/-! ## ALU (section 2.3) -/

theorem test_ldImm : regs (after (word 0x6A3C)) [10, 15] = [0x3C, 0] ∧ regs (after (word 0x6F07)) [15] = [7] := by decide
theorem test_addImm : regs (after (wordRegs 0x7101 [(1, 0xFF)])) [1, 15] = [0, 0] ∧ regs (after (wordRegs 0x71FF [(1, 5)])) [1] = [4] := by
  decide
theorem test_ldReg : regs (after (wordRegs 0x8120 [(2, 0x77)])) [1, 2] = [0x77, 0x77] := by decide
theorem test_orReg : regs (after (wordRegs 0x8121 [(1, 0xF0), (2, 0x0F), (15, 1)])) [1, 2, 15] = [0xFF, 0x0F, 1] := by decide
theorem test_andReg : regs (after (wordRegs 0x8122 [(1, 0xF3), (2, 0x3F), (15, 1)])) [1, 15] = [0x33, 1] := by decide
theorem test_xorReg : regs (after (wordRegs 0x8123 [(1, 0xFF), (2, 0x0F), (15, 1)])) [1, 15] = [0xF0, 1] := by decide
theorem test_addReg : regs (after (wordRegs 0x8124 [(1, 0xFA), (2, 6)])) [1, 15] = [0, 1] ∧
    regs (after (wordRegs 0x8124 [(1, 0x80), (2, 0x7F)])) [1, 15] = [0xFF, 0] := by decide
theorem test_addReg_flag_operand : regs (after (wordRegs 0x8F14 [(15, 0xC8), (1, 0x64)])) [15] = [0x65] ∧
    regs (after (wordRegs 0x81F4 [(1, 0x0A), (15, 0xFA)])) [1, 15] = [0x0B, 1] ∧
    regs (after (wordRegs 0x8FF4 [(15, 0x80)])) [15] = [2] := by decide
theorem test_subReg : regs (after (wordRegs 0x8125 [(1, 1), (2, 6)])) [1, 15] = [0xFB, 1] ∧
    regs (after (wordRegs 0x8125 [(1, 6), (2, 6)])) [1, 15] = [0, 0] := by decide
theorem test_subReg_flag_operand : regs (after (wordRegs 0x8F15 [(15, 9), (1, 6)])) [15] = [0xFA] ∧
    regs (after (wordRegs 0x81F5 [(1, 5), (15, 9)])) [1, 15] = [4, 1] ∧ regs (after (wordRegs 0x8FF5 [(15, 7)])) [15] = [0] := by decide
theorem test_subnReg : regs (after (wordRegs 0x8127 [(1, 1), (2, 6)])) [1, 15] = [5, 0] ∧
    regs (after (wordRegs 0x8127 [(1, 6), (2, 6)])) [1, 15] = [0, 1] := by decide
theorem test_subnReg_flag_operand : regs (after (wordRegs 0x8F17 [(15, 9), (1, 6)])) [15] = [5] ∧
    regs (after (wordRegs 0x81F7 [(1, 5), (15, 2)])) [1, 15] = [0xFC, 1] ∧ regs (after (wordRegs 0x8FF7 [(15, 7)])) [15] = [0] := by
  decide
theorem test_shr : regs (after (wordRegs 0x8106 [(1, 0x19)])) [1, 15] = [0x0C, 1] ∧
    regs (after (wordRegs 0x8126 [(1, 4), (2, 0xFF)])) [1, 2, 15] = [2, 0xFF, 0] := by decide
theorem test_shr_flag_operand : regs (after (wordRegs 0x8F06 [(15, 3)])) [15] = [0] := by decide
theorem test_shl : regs (after (wordRegs 0x810E [(1, 0xC1)])) [1, 15] = [0x82, 1] ∧
    regs (after (wordRegs 0x812E [(1, 4), (2, 0xFF)])) [1, 2, 15] = [8, 0xFF, 0] := by decide
theorem test_shl_flag_operand : regs (after (wordRegs 0x8F0E [(15, 0x81)])) [15] = [2] := by decide
/-- The random byte is a free value, so the vector's byte is given to the shared operation. -/
theorem test_rnd : ∀ t, (word 0xC30F).randomStore 0xB7#8 3 0x0F#8 = .next t → regs t [3, 15] = [7, 0] := by
  intro t h
  cases h
  decide
theorem test_rnd_zero_mask : ∃ t, step (word 0xC300) = .next t ∧ t.rndDraws = 1 ∧ t.pc = 0x202#16 := ⟨_, rfl, rfl, rfl⟩

/-! ## Index register and memory (section 2.4) -/

theorem test_ldI : (after (word 0xA2F0)).i = 0x2F0#16 := by decide
theorem test_addI : (after (wordMem 0xF11E [(1, 1)] 0xFFF [])).i = 0x1000#16 ∧ (after (wordMem 0xF11E [(1, 1)] 0xFFFF [])).i = 0#16 := by
  decide
theorem test_ldF : (after (wordRegs 0xF429 [(4, 0x0A)])).i = 0x32#16 ∧ (after (wordRegs 0xF429 [(4, 0xFF)])).i = 0x4FB#16 := by decide
theorem test_ldB : bytes (after (wordMem 0xF033 [(0, 254)] 0x300 [])) 0x300 4 = [2, 5, 4, 0] ∧
    bytes (after (wordMem 0xF033 [(0, 123)] 0xFFD [])) 0xFFD 3 = [1, 2, 3] := by decide
theorem test_ldB_range : faultOf (wordMem 0xF033 [(0, 123)] 0xFFE []) = some (.outOfRangeAccess 0x1000#16) ∧
    faultOf (wordMem 0xF033 [(0, 123)] 0x1234 []) = some (.outOfRangeAccess 0x1234#16) := by decide
theorem test_stRegs : bytes (after (wordMem 0xF255 [(0, 9), (1, 8), (2, 7)] 0xFFD [])) 0xFFC 4 = [0, 9, 8, 7] ∧
    (after (wordMem 0xF255 [(0, 9)] 0xFFD [])).i = 0xFFD#16 ∧
    bytes (after (wordMem 0xF055 [(0, 0xAB), (1, 0xCD)] 0x300 [])) 0x300 2 = [0xAB, 0] := by decide
theorem test_stRegs_range : faultOf (wordMem 0xF255 [(0, 9)] 0xFFE []) = some (.outOfRangeAccess 0x1000#16) ∧
    bytes (after (wordMem 0xF255 [(0, 9)] 0xFFE [])) 0xFFE 1 = [0] := by decide
theorem test_ldRegs : regs (after (wordMem 0xF265 [(3, 0x55)] 0x300 [2, 5, 4, 6])) [0, 1, 2, 3] = [2, 5, 4, 0x55] ∧
    regs (after (wordMem 0xFF65 [] 0x300 ((List.range 16).map (0xA0 + ·)))) [0, 15] = [0xA0, 0xAF] := by decide
theorem test_ldRegs_range : faultOf (wordMem 0xF165 [] 0xFFF [0x77]) = some (.outOfRangeAccess 0x1000#16) ∧
    regs (after (wordMem 0xF065 [] 0xFFF [0x77])) [0] = [0x77] := by decide
/-- The memory keeps its canonical form: writing the reset value removes the cell. -/
theorem test_memory_canonical : (Memory.writeBytes [] 5 [1#8, 0#8, 2#8]) = [(5, 1#8), (7, 2#8)] ∧
    Memory.write [(5, 1#8), (7, 2#8)] 5 0#8 = [(7, 2#8)] ∧ Memory.wf [(7, 2#8), (5, 1#8)] = false ∧ Memory.wf [(4096, 1#8)] = false ∧
    Memory.wf [(5, 0#8)] = false := by decide

/-! ## Display (section 2.5) -/

theorem test_cls : litColumns (after (lit (word 0x00E0))) 31 = [] ∧ regs (after (lit (wordRegs 0x00E0 [(15, 1)]))) [15] = [1] := by decide
theorem test_drw_wraps : litColumns (after (wordMem 0xD011 [(0, 60)] 0x300 [0xFF])) 0 = [0, 1, 2, 3, 60, 61, 62, 63] ∧
    litColumns (after (wordMem 0xD113 [(1, 30)] 0x300 [0x80, 0x80, 0x80])) 0 = [30] ∧
    litColumns (after (wordMem 0xD011 [(0, 0xFF), (1, 0xFF)] 0x300 [0x81])) 31 = [6, 63] := by decide
theorem test_drw_collision : regs (after (lit (wordMem 0xD011 [] 0x300 [0xF0]))) [15] = [1] ∧
    litColumns (after (lit (wordMem 0xD01F [] 0x300 (List.replicate 15 0xFF)))) 14 = (List.range 56).map (· + 8) ∧
    litColumns (after (wordMem 0xDF11 [(15, 3)] 0x300 [0x80])) 0 = [3] ∧
    regs (after (wordMem 0xD010 [(15, 1)] 0x300 [0xFF])) [15] = [0] := by decide
theorem test_drw_range : faultOf (wordMem 0xD012 [(15, 7)] 0xFFF [0xFF]) = some (.outOfRangeAccess 0x1000#16) ∧
    regs (after (wordMem 0xD012 [(15, 7)] 0xFFF [0xFF])) [15] = [7] := by decide

/-! ## Keyboard and timers (sections 2.6, 2.7 and E7), host operations -/

/-- A state whose host operations come first. -/
def host (s : State) (ops : List HostOp) : State := { s with hostOps := ops }

theorem test_skp : (after (word 0xE09E)).pc = 0x202#16 ∧ (after ((wordRegs 0xE09E [(0, 7)]).keyPressed 7)).pc = 0x204#16 := by decide
theorem test_skp_all_bits : (after ((wordRegs 0xE09E [(0, 0x17)]).keyPressed 7)).pc = 0x202#16 ∧
    (after (((wordRegs 0xE09E [(0, 7)]).keyPressed 7).keyPressed 8)).pc = 0x202#16 := by decide
theorem test_sknp : (after (word 0xE0A1)).pc = 0x204#16 ∧ (after ((wordRegs 0xE0A1 [(0, 7)]).keyPressed 7)).pc = 0x202#16 := by decide
theorem test_sknp_all_bits : (after ((wordRegs 0xE0A1 [(0, 0x17)]).keyPressed 7)).pc = 0x204#16 := by decide
theorem test_ldVxK : (after (word 0xF30A)).isHalted = true ∧ (after (word 0xF30A)).pendingKeyWaitRegister = 3 ∧
    (after (word 0xF30A)).pc = 0x200#16 ∧ after (after (word 0xF30A)) = after (word 0xF30A) := by decide
theorem test_key_resolves_wait : regs (after (host (waiting 15) [.key 0xA])) [15] = [0xA] ∧ (after (host (waiting 15) [.key 0xA])).pc = 0x202#16 ∧
    (after (host (waiting 15) [.key 0xA])).isHalted = false ∧ (after (host (word 0xF30A) [.key 9])).pc = 0x200#16 := by decide
theorem test_ldVxDt : regs (after { word 0xF107 with dt := 5 }) [1] = [5] := by decide
theorem test_ldDtVx : (after (wordRegs 0xF015 [(0, 7)])).dt = 7#8 ∧ (after (wordRegs 0xF015 [(0, 7)])).st = 0#8 := by decide
theorem test_ldStVx : (after (wordRegs 0xF018 [(0, 0x1E)])).st = 30#8 ∧ (after (wordRegs 0xF018 [(0, 0x1E)])).dt = 0#8 := by decide
theorem test_ticks : (after (host { word 0 with dt := 7, st := 2 } [.tickDelay])).dt = 6#8 ∧
    (after (host { word 0 with dt := 7, st := 2 } [.tickSound])).st = 1#8 ∧ (after (host (word 0) [.tickDelay])).dt = 0#8 := by decide
theorem test_reset_images : bytes (after (host State.reset [.reset [0xF0, 0x90] [0x12, 0x00]])) 0x200 2 = [0x12, 0] ∧
    bytes (after (host State.reset [.reset [0xF0, 0x90] [0x12, 0x00]])) 0 3 = [0xF0, 0x90, 0] := by decide
theorem test_zero_memory_faults : faultOf State.reset = some (.unrecognizedInstruction 0#16) := by decide
theorem test_fetch_range : faultOf (pcAt 0xFFF) = some (.outOfRangeAccess 0x1000#16) ∧ faultOf (pcAt 0x10FE) = some (.outOfRangeAccess 0x10FE#16) :=
  by decide
/-- "a halted core reports HALTED whatever `PC` holds". -/
theorem test_halted_out_of_range : stepResult { waiting 0 with pc := 0x1000#16 } = .halted ∧ stepResult (pcAt 0xFFE) = .fault (.unrecognizedInstruction 0#16) :=
  by decide
theorem test_withFetchWord_odd_and_far : (after (wordAt 0x203 0x602A)).pc = 0x205#16 ∧ (after (wordAt 0xFFFF 0x602A)).pc = 0x202#16 := by decide

/-! ## Witnesses: for each obligation with hypotheses, a concrete state and operands that meet all of them, each clause apart and at
the bounds of its range -/

theorem no_row (w : Word) (h : decodeWord w = .error (.unrecognizedInstruction w)) : ∀ i, decodeWord w ≠ .ok i := by
  intro i hi
  rw [h] at hi
  cases hi

theorem witness_TwoLevelDecodeIsOpcodeMap : opcodeRows.all (fun r => decide (r.bits &&& r.mask = r.bits) &&
    decide (decodeWord (r.bits ||| (0x0AB0#16 &&& ~~~r.mask)) = .ok (r.build (r.bits ||| (0x0AB0#16 &&& ~~~r.mask))))) = true := by decide

theorem witness_UnrecognizedWordsAreTheListedOnes : (∀ i, decodeWord 0x0123#16 ≠ .ok i) ∧ (∀ i, decodeWord 0x8AB8#16 ≠ .ok i) ∧
    (∀ i, decodeWord 0xE19F#16 ≠ .ok i) ∧ (∀ i, decodeWord 0xF100#16 ≠ .ok i) ∧ (word 0x0123).isHalted = false ∧
    (word 0x0123).fetchWord = .ok 0x0123#16 :=
  ⟨no_row 0x0123#16 (by decide), no_row 0x8AB8#16 (by decide),
    no_row 0xE19F#16 (by decide), no_row 0xF100#16 (by decide),
    by decide, by decide⟩

theorem witness_EncodeOfDecodeIsIdentity : decodeWord 0x07EE#16 = .ok (.ret 7) ∧ decodeWord 0xDAB5#16 = .ok (.drw 0xA 0xB 5) := by decide

/-- At the lowest and at the highest address that an instruction can be fetched from, with and without an operation named by the
host. -/
theorem witness_StepRunsDecodedInstruction :
    (wordAt 0 0x6A3C).isHalted = false ∧ (wordAt 0 0x6A3C).hostOps = [] ∧
    decodeBytes [(wordAt 0 0x6A3C).readByte 0, (wordAt 0 0x6A3C).readByte 1] = .ok (.ldImm 0xA 0x3C, []) ∧
    (wordAt 4094 0x6A3C).pc.toNat = 4094 ∧
    decodeBytes [(wordAt 4094 0x6A3C).readByte 4094, (wordAt 4094 0x6A3C).readByte 4095] = .ok (.ldImm 0xA 0x3C, []) ∧
    (host (word 0x6A3C) [.step, .key 3]).isHalted = false ∧ (host (word 0x6A3C) [.step, .key 3]).hostOps = .step :: [.key 3] := by decide

theorem witness_FetchIsHighByteFirst : (pcAt 4094).pc.toNat ≤ 4094 ∧ (pcAt 4095).isHalted = false ∧ (pcAt 4095).pc.toNat = 4095 ∧
    4096 ≤ (pcAt 4096).pc.toNat ∧ (pcAt 65535).isHalted = false ∧ 4096 ≤ (pcAt 65535).pc.toNat := by decide

theorem witness_StepEndsWithOneOfThreeResults : stepResult (waiting 3) = .halted ∧ stepResult (word 0x6A3C) = .executed ∧
    stepResult (word 0x00EE) = .fault .stackUnderflow ∧ HostOp.key 3 ≠ .step := by decide

theorem witness_FaultsAreRaisedExactlyAsListed :
    stepResult (pcAt 4095) = .fault (.outOfRangeAccess 4096#16) ∧ stepResult (pcAt 4097) = .fault (.outOfRangeAccess 4097#16) ∧
    stepResult (word 0x8008) = .fault (.unrecognizedInstruction 0x8008#16) ∧ stepResult (depth (word 0x2300) 16 0) = .fault .stackOverflow ∧
    stepResult (word 0x00EE) = .fault .stackUnderflow ∧
    stepResult (wordMem 0xD01F [] 4082 []) = .fault (.outOfRangeAccess 4096#16) ∧
    stepResult (wordMem 0xF033 [] 4094 []) = .fault (.outOfRangeAccess 4096#16) ∧
    stepResult (wordMem 0xFF55 [] 4081 []) = .fault (.outOfRangeAccess 4096#16) ∧
    stepResult (wordMem 0xFF65 [] 4097 []) = .fault (.outOfRangeAccess 4097#16) ∧
    stepResult (wordMem 0xFF65 [] 4080 []) = .executed := by decide

theorem witness_ChecksAreMadeInOrder : (waiting 3).isHalted = true ∧ 4094 < (pcAt 4095).pc.toNat ∧ (pcAt 4095).isHalted = false ∧
    (word 0x00EE).fetchWord = .ok 0x00EE#16 ∧ decodeWord 0x00EE#16 = .ok (.ret 0) ∧ (word 0x0123).fetchWord = .ok 0x0123#16 ∧
    decodeWord 0x0123#16 = .error (.unrecognizedInstruction 0x0123#16) := by decide

theorem witness_FaultingStepFaultsAgain : ∃ f, stepInstr (word 0x00EE) = .fault f := ⟨_, rfl⟩

theorem witness_ResetOperationLoadsImages : (List.replicate 512 1#8).length ≤ 512 ∧ (List.replicate 3584 1#8).length ≤ 3584 ∧
    512 < (List.replicate 513 1#8).length ∧ 3584 < (List.replicate 3585 1#8).length := by
  simp only [List.length_replicate]
  decide

/-- The invariant with a store, with a key and with a wait, each with a next state. -/
theorem witness_EveryStepKeepsInvariant :
    (∃ t, (wordMem 0xF033 [(0, 254)] 0xFFD []).Inv ∧ step (wordMem 0xF033 [(0, 254)] 0xFFD []) = .next t) ∧
    (∃ t, (host (waiting 15) [.key 0xA]).Inv ∧ step (host (waiting 15) [.key 0xA]) = .next t) ∧
    (∃ t, ((word 0xF30A).keyPressed 5).Inv ∧ step ((word 0xF30A).keyPressed 5) = .next t) :=
  ⟨⟨_, ⟨by decide, by decide, by decide⟩, rfl⟩, ⟨_, ⟨by decide, by decide, by decide⟩, rfl⟩, ⟨_, ⟨by decide, by decide, by decide⟩, rfl⟩⟩

/-- For each part, a step that changes it. -/
theorem witness_StepWritesOnlyAsSummarized :
    stepResult (word 0x6A3C) = .executed ∧ (word 0x6A3C).isHalted = false ∧
    (after (wordMem 0xF033 [(0, 254)] 0xFFD [])).mem ≠ (wordMem 0xF033 [(0, 254)] 0xFFD []).mem ∧
    (after (word 0xA2F0)).i ≠ (word 0xA2F0).i ∧ (after (wordRegs 0xF015 [(0, 7)])).dt ≠ (wordRegs 0xF015 [(0, 7)]).dt ∧
    (after (wordRegs 0xF018 [(0, 7)])).st ≠ (wordRegs 0xF018 [(0, 7)]).st ∧ (after (word 0x2300)).sp ≠ (word 0x2300).sp ∧
    (after (word 0x2300)).stack ≠ (word 0x2300).stack ∧ (after (lit (word 0x00E0))).fb ≠ (lit (word 0x00E0)).fb ∧
    (after (word 0xF30A)).isHalted ≠ (word 0xF30A).isHalted ∧ (after (word 0x1200)).pc = (word 0x1200).pc ∧
    (after (word 0xC300)).rndDraws ≠ (word 0xC300).rndDraws := by decide

/-- For the registers: a destination, the flag beside another destination, the flag of a draw, and the last register of a block. -/
theorem witness_StepWritesOnlyAsSummarized_registers :
    regs (after (word 0x6A3C)) [10] ≠ regs (word 0x6A3C) [10] ∧
    regs (after (wordRegs 0x8124 [(1, 0x80), (2, 0x80)])) [15] ≠ regs (wordRegs 0x8124 [(1, 0x80), (2, 0x80)]) [15] ∧
    regs (after (lit (wordMem 0xD001 [] 0x300 [1]))) [15] ≠ regs (lit (wordMem 0xD001 [] 0x300 [1])) [15] ∧
    regs (after (wordMem 0xF165 [] 0x300 [0, 1])) [1] ≠ regs (wordMem 0xF165 [] 0x300 [0, 1]) [1] := by decide

/-- The flag changes by a carry, a collision, an immediate, a copy, the timer and a block load. -/
theorem witness_OnlySixInstructionsWriteFlagAsSideEffect :
    (∃ t, exec (.addReg 1 1) (wordRegs 0 [(1, 0x80)]) = .next t ∧ t.readReg vF ≠ (wordRegs 0 [(1, 0x80)]).readReg vF) ∧
    (∃ t, exec (.drw 0 0 1) (lit (wordMem 0 [] 0x300 [1])) = .next t ∧ t.readReg vF ≠ (lit (wordMem 0 [] 0x300 [1])).readReg vF) ∧
    (∃ t, exec (.ldImm vF 7) (word 0) = .next t ∧ t.readReg vF ≠ (word 0).readReg vF) ∧
    (∃ t, exec (.ldReg vF 1) (wordRegs 0 [(1, 9)]) = .next t ∧ t.readReg vF ≠ (wordRegs 0 [(1, 9)]).readReg vF) ∧
    (∃ t, exec (.ldVxDt vF) { word 0 with dt := 5 } = .next t ∧ t.readReg vF ≠ ({ word 0 with dt := 5 } : State).readReg vF) ∧
    (∃ t, exec (.ldRegs vF) (wordMem 0 [] 4080 (List.replicate 16 1)) = .next t ∧
      t.readReg vF ≠ (wordMem 0 [] 4080 (List.replicate 16 1)).readReg vF) :=
  ⟨⟨_, rfl, by decide⟩, ⟨_, rfl, by decide⟩, ⟨_, rfl, by decide⟩, ⟨_, rfl, by decide⟩, ⟨_, rfl, by decide⟩, ⟨_, rfl, by decide⟩⟩

/-- `LD Vx, NN` is a reader of none of the parts, its own destination included. -/
theorem witness_InstructionsReadOnlyAsSummarized : (∃ t, exec (.ldImm 1 7) (word 0) = .next t) ∧ (∀ x, Instr.ldImm 1 7 ≠ .ldVxDt x) ∧
    (∀ x, Instr.ldImm 1 7 ≠ .skp x ∧ Instr.ldImm 1 7 ≠ .sknp x) ∧ (∀ x y n, Instr.ldImm 1 7 ≠ .drw x y n) ∧
    (∀ nnn ign, Instr.ldImm 1 7 ≠ .call nnn ∧ Instr.ldImm 1 7 ≠ .ret ign) ∧
    (∀ x, Instr.ldImm 1 7 ≠ .addI x ∧ Instr.ldImm 1 7 ≠ .ldB x ∧ Instr.ldImm 1 7 ≠ .stRegs x ∧ Instr.ldImm 1 7 ≠ .ldRegs x) ∧
    (∀ r, readsRegister (.ldImm 1 7) r = false) ∧ ∀ nnn, Instr.ldImm 1 7 ≠ .call nnn := by
  refine ⟨⟨_, rfl⟩, ?_, ?_, ?_, ?_, ?_, fun _ => rfl, ?_⟩ <;> intros <;> simp

/-- A block store reads no register above its block, `JP V0` none but `V[0]`; the three that take their `PC` from elsewhere. -/
theorem witness_InstructionsReadOnlyAsSummarized_registers_pc :
    (readsRegister (.stRegs 3) 4 = false ∧ ∃ t, exec (.stRegs 3) (word 0) = .next t) ∧ readsRegister (.jpV0 0x300) 1 = false ∧
    (∃ t, exec (.jpV0 0x300) (word 0) = .next t ∧ ∃ nnn ign, Instr.jpV0 0x300 = .jp nnn ∨ Instr.jpV0 0x300 = .jpV0 nnn ∨ Instr.jpV0 0x300 = .ret ign) ∧
    (∃ t, exec (.jp 0x300) (word 0) = .next t ∧ ∀ nnn, Instr.jp 0x300 ≠ .call nnn) ∧
    ∃ t, exec (.ret 0) (depth (word 0) 1 0x300) = .next t ∧ ∀ nnn, Instr.ret 0 ≠ .call nnn :=
  ⟨⟨by decide, _, rfl⟩, by decide, ⟨_, rfl, 0x300, 0, .inr (.inl rfl)⟩, ⟨_, rfl, by simp⟩, ⟨_, rfl, by simp⟩⟩

theorem witness_KeyRecordsAndResolvesWait : (word 0).isHalted = false ∧ (waiting 15).isHalted = true := by decide

theorem witness_KeyWaitTransitionTable : (word 0xF30A).isHalted = (word 0xF30A).hasPendingKeyWait ∧ (word 0xF30A).isHalted = false ∧
    (word 0xF30A).fetchWord = .ok 0xF30A#16 ∧ decodeWord 0xF30A#16 = .ok (.ldVxK 3) ∧
    (word 0x6A3C).isHalted = (word 0x6A3C).hasPendingKeyWait ∧ (word 0x6A3C).fetchWord = .ok 0x6A3C#16 ∧
    decodeWord 0x6A3C#16 = .ok (.ldImm 0xA 0x3C) ∧ stepResult (word 0x6A3C) = .executed ∧ stepResult (word 0x00EE) = .fault .stackUnderflow ∧
    (waiting 3).isHalted = (waiting 3).hasPendingKeyWait ∧ (waiting 3).isHalted = true ∧
    (after (host (waiting 3) [.reset [] []])).isHalted = false ∧ (after (host (waiting 3) [.tickSound])).isHalted = true := by decide

theorem witness_OnlyKeyOrResetEndsTheWait : (waiting 3).isHalted = true ∧
    ∀ op ∈ [HostOp.step, .tickDelay, .step, .tickSound, .tickDelay], op = .step ∨ op = .tickDelay ∨ op = .tickSound := by decide

theorem witness_CallPushesReturnAddress : (depth (word 0) 16 0).sp.val = 16 ∧ (depth (word 0) 15 0).sp.val = (15 : Fin 16).val ∧
    (word 0).sp.val = (0 : Fin 16).val := by decide

theorem witness_ReturnPopsReturnAddress : (word 0).sp.val = 0 ∧ (depth (word 0) 1 0).sp.val = (0 : Fin 16).val + 1 ∧
    (depth (word 0) 16 0).sp.val = (15 : Fin 16).val + 1 := by decide

theorem witness_ReturnUndoesCall : ∃ t, exec (.call 0x300) (depth (word 0) 15 0) = .next t ∧ t.stack = t.stack ∧ t.sp = t.sp :=
  ⟨_, rfl, rfl, rfl⟩

theorem witness_SelfJumpChangesNothing : endOfRun (word 0x1200) = true ∧ (word 0x1200).hostOps = [] ∧ endOfRun (wordAt 0x205 0x1205) = true := by
  decide

/-- `SkipsCompareRegisters` and `LogicWritesOneRegister` with `X = Y` (sections 2.2 and 2.3). -/
theorem witness_same_register_clauses : (after (wordRegs 0x5110 [(1, 9)])).pc = 0x204#16 ∧ (after (wordRegs 0x9110 [(1, 9)])).pc = 0x202#16 ∧
    regs (after (wordRegs 0x8113 [(1, 0x5A)])) [1] = [0] ∧ regs (after (wordRegs 0x8111 [(1, 0x5A)])) [1] = [0x5A] ∧
    regs (after (wordRegs 0x8112 [(1, 0x5A)])) [1] = [0x5A] := by decide

/-- `AddWritesCarryThenSum`, `SubWritesBorrowThenDifference`, `SubnWritesFlagThenDifference`, `ShiftRightWritesLowBit` and
`ShiftLeftWritesHighBit`: no operand, one operand and both operands register 15, beside the tests of section 2.3 above. -/
theorem witness_flag_operand_clauses : (1 : Reg) ≠ vF ∧ (2 : Reg) ≠ vF ∧ (15 : Reg) = vF ∧
    regs (after (wordRegs 0x81F4 [(1, 0x0A), (15, 3)])) [1, 15] = [0x0A, 0] ∧ regs (after (wordRegs 0x8FF4 [(15, 0x7F)])) [15] = [0] ∧
    regs (after (wordRegs 0x8F15 [(15, 1), (1, 6)])) [15] = [0xFB] ∧ regs (after (wordRegs 0x81F5 [(1, 5), (15, 2)])) [1, 15] = [5, 0] ∧
    regs (after (wordRegs 0x8F17 [(15, 1), (1, 6)])) [15] = [6] ∧ regs (after (wordRegs 0x81F7 [(1, 5), (15, 9)])) [1, 15] = [0xFB, 0] ∧
    regs (after (wordRegs 0x8F06 [(15, 2)])) [15] = [0] ∧ regs (after (wordRegs 0x8F0E [(15, 0x41)])) [15] = [0] := by decide

theorem witness_RandomStoreMasksFreshByte : (∀ x nn, Instr.cls 0 ≠ .rnd x nn) ∧ ∃ u, exec (.cls 0) (word 0) = .next u :=
  ⟨by intros; simp, _, rfl⟩

theorem witness_DecimalDigitsAreStored : (wordMem 0 [(0, 254)] 4093 []).mem.wf = true ∧ (wordMem 0 [(0, 254)] 4093 []).i.toNat + 2 ≤ 4095 ∧
    (wordMem 0 [] 4094 []).mem.wf = true ∧ 4095 < (wordMem 0 [] 4094 []).i.toNat + 2 := by decide

theorem witness_RegistersAreStored : (wordMem 0 [] 4080 []).mem.wf = true ∧ (wordMem 0 [] 4080 []).i.toNat + (15 : Reg).toNat ≤ 4095 ∧
    4095 < (wordMem 0 [] 4081 []).i.toNat + (15 : Reg).toNat ∧ (wordMem 0 [] 4095 []).i.toNat + (0 : Reg).toNat ≤ 4095 ∧
    4095 < (wordMem 0 [] 4096 []).i.toNat + (0 : Reg).toNat ∧ (wordMem 0 [] 4096 []).mem.wf = true := by decide

theorem witness_RegistersAreLoaded : (wordMem 0 [] 4080 []).i.toNat + (15 : Reg).toNat ≤ 4095 ∧
    4095 < (wordMem 0 [] 4081 []).i.toNat + (15 : Reg).toNat ∧ (15 : Reg).toNat ≤ (15 : Reg).toNat := by decide

/-- `PC` at 0x206, so that the next instruction is at 0x208; the bytes around it 0x11, two registers set, and `I` at an address. -/
def storing (i : Nat) : State :=
  ((wordMem 0 [(0, 254), (1, 0x99)] 0x204 (List.replicate 10 0x11)).setIndex (BitVec.ofNat 16 i)).setPc 0x206#16

/-- A block store over the low byte of the next instruction, over both its bytes, over the high one; 254 is 0xFE. -/
theorem witness_NextFetchSeesStore :
    (∃ t, (storing 0x209).mem.wf = true ∧ exec (.stRegs 1) (storing 0x209) = .next t ∧ t.pc.toNat + 1 = (storing 0x209).indexAddr 0 ∧ t.fetchWord = .ok 0x11FE#16) ∧
    (∃ t, (storing 0x208).mem.wf = true ∧ exec (.stRegs 1) (storing 0x208) = .next t ∧ (0 : Reg).toNat + 1 = (1 : Reg).toNat ∧ t.pc.toNat = (storing 0x208).indexAddr (0 : Reg).toNat ∧ t.fetchWord = .ok 0xFE99#16) ∧
    (∃ t, (storing 0x207).mem.wf = true ∧ exec (.stRegs 1) (storing 0x207) = .next t ∧ t.pc.toNat = (storing 0x207).indexAddr (1 : Reg).toNat ∧ t.pc.toNat ≤ 4094 ∧ t.fetchWord = .ok 0x9911#16) :=
  ⟨⟨_, by decide, rfl, by decide, by decide⟩, ⟨_, by decide, rfl, by decide, by decide, by decide⟩,
    ⟨_, by decide, rfl, by decide, by decide, by decide⟩⟩

/-- The digits of 254 over the next instruction, in the four ways they can overlap it. -/
theorem witness_NextFetchSeesStore_digits :
    (∃ t, (storing 0x209).mem.wf = true ∧ exec (.ldB 0) (storing 0x209) = .next t ∧ t.pc.toNat + 1 = (storing 0x209).indexAddr 0 ∧ t.fetchWord = .ok 0x1102#16) ∧
    (∃ t, (storing 0x208).mem.wf = true ∧ exec (.ldB 0) (storing 0x208) = .next t ∧ t.pc.toNat = (storing 0x208).indexAddr 0 ∧ t.fetchWord = .ok 0x0205#16) ∧
    (∃ t, (storing 0x207).mem.wf = true ∧ exec (.ldB 0) (storing 0x207) = .next t ∧ t.pc.toNat = (storing 0x207).indexAddr 1 ∧ t.fetchWord = .ok 0x0504#16) ∧
    (∃ t, (storing 0x206).mem.wf = true ∧ exec (.ldB 0) (storing 0x206) = .next t ∧ t.pc.toNat = (storing 0x206).indexAddr 2 ∧ t.pc.toNat ≤ 4094 ∧ t.fetchWord = .ok 0x0411#16) :=
  ⟨⟨_, by decide, rfl, by decide, by decide⟩, ⟨_, by decide, rfl, by decide, by decide⟩, ⟨_, by decide, rfl, by decide, by decide⟩,
    ⟨_, by decide, rfl, by decide, by decide, by decide⟩⟩

theorem witness_StoreThenLoadRestoresRegisters : ∃ t, (wordMem 0 [(0, 9), (15, 7)] 4080 []).mem.wf = true ∧
    exec (.stRegs 15) (wordMem 0 [(0, 9), (15, 7)] 4080 []) = .next t ∧ (t.setPc 0#16).mem = t.mem ∧ (t.setPc 0#16).i = t.i :=
  ⟨_, by decide, rfl, rfl, rfl⟩

/-- No rows; rows up to the last address; one row too many; a pixel under the sprite at the wrap of both edges and one beside it. -/
theorem witness_DrawXorsSpriteAndReportsCollision : (0 : Nibble).toNat = 0 ∧ (wordMem 0 [] 4081 []).i.toNat + (15 : Nibble).toNat - 1 ≤ 4095 ∧
    ((15 : Nibble).toNat ≠ 0 ∧ 4095 < (wordMem 0 [] 4082 []).i.toNat + (15 : Nibble).toNat - 1) ∧
    (0 : Fin 2048).val = (((wordRegs 0 [(0, 63), (1, 31)]).readReg 1).toNat + 1) % 32 * 64 + (((wordRegs 0 [(0, 63), (1, 31)]).readReg 0).toNat + 1) % 64 ∧
    (∀ row < 2, ∀ col < 8, (1000 : Fin 2048).val ≠ ((wordRegs 0 [(0, 63), (1, 31)]).readReg 1 |>.toNat |> (· + row)) % 32 * 64 +
      (((wordRegs 0 [(0, 63), (1, 31)]).readReg 0).toNat + col) % 64) := by decide

theorem witness_DrawingTwiceRestoresPicture : ∃ t v, exec (.drw 0 1 2) (wordMem 0 [(0, 63), (1, 31)] 0x300 [0xC0, 0x80]) = .next t ∧
    t.mem = (wordMem 0 [(0, 63), (1, 31)] 0x300 [0xC0, 0x80]).mem ∧ t.i = (wordMem 0 [(0, 63), (1, 31)] 0x300 [0xC0, 0x80]).i ∧
    t.readReg 0 = (wordMem 0 [(0, 63), (1, 31)] 0x300 [0xC0, 0x80]).readReg 0 ∧
    t.readReg 1 = (wordMem 0 [(0, 63), (1, 31)] 0x300 [0xC0, 0x80]).readReg 1 ∧ exec (.drw 0 1 2) t = .next v ∧ v.readReg vF = 1#8 :=
  ⟨_, _, rfl, rfl, rfl, rfl, rfl, rfl, by decide⟩

/-- The sentence of R132 that a second draw always collides does not hold of the rule's own pseudocode: over a lit screen the second
draw of a set sprite meets only pixels that the first one cleared (log 12). -/
theorem test_second_draw_without_collision : regs (after (lit (wordMem 0xD011 [] 0x300 [0xFF]))) [15] = [1] ∧
    regs (after ((after (lit (wordMem 0xD011 [] 0x300 [0xFF]))).setPc 0x200#16)) [15] = [0] := by decide

theorem witness_KeySkipsTestCurrentKey : 15 < ((wordRegs 0 [(0, 16)]).readReg 0).toNat ∧ ((wordRegs 0 [(0, 15)]).keyPressed 15).keyValid = true ∧
    ((wordRegs 0 [(0, 15)]).keyPressed 15).keyCode.toNat = (((wordRegs 0 [(0, 15)]).keyPressed 15).readReg 0).toNat := by decide

theorem witness_KeyWaitHaltsWithoutAdvancing : (word 0xF30A).isHalted = false ∧ (word 0xF30A).fetchWord = .ok 0xF30A#16 ∧
    decodeWord 0xF30A#16 = .ok (.ldVxK 3) ∧ stepResult (word 0xF30A) = .executed := by decide

end Sys2Proof.Tests
end

section
/-! PROOFS. The state after reset (10_state.md R24): one lemma per element that is read through an index, then O14. -/

namespace Sys2Proof.Machine

/-- Reset lists no memory cell, and an unlisted address reads 0. -/
@[simp] theorem readByte_reset (a : Nat) : State.reset.readByte a = 0#8 := rfl

@[simp] theorem readReg_reset (r : Reg) : State.reset.readReg r = 0#8 :=
  Vector.getElem_replicate r.isLt

@[simp] theorem stack_reset (k : Fin 16) : State.reset.stack[k] = 0x0000#16 :=
  Vector.getElem_replicate k.isLt

@[simp] theorem pixel_reset (p : Fin 2048) : State.reset.fb.pixel p = false :=
  pixel_blank p

/-- Settles O14: the four indexed elements by their lemmas, every other element by its value in `State.reset`. -/
theorem resetGivesTheListedValues : Obligations.ResetGivesTheListedValues := by
  unfold Obligations.ResetGivesTheListedValues
  exact ⟨readByte_reset, readReg_reset, rfl, rfl, rfl, rfl, rfl, stack_reset, rfl, rfl, rfl, rfl, rfl, pixel_reset⟩

end Sys2Proof.Machine
end

section
/-! PROOFS. The fields of a word as its bit slices (30_encoding.md R61): each field's number is that of the slice, the overlaps are
adjacent slices appended, then O1. -/

namespace Sys2Proof

theorem eq_extractLsb'_of_toNat_eq {start len : Nat} {w : Word} {a : BitVec len} (h : a.toNat = w.toNat / 2 ^ start % 2 ^ len) :
    a = w.extractLsb' start len := by
  apply BitVec.eq_of_toNat_eq
  rw [h, BitVec.extractLsb'_toNat, Nat.shiftRight_eq_div_pow]

theorem fieldX_eq_extractLsb' (w : Word) : fieldX w = w.extractLsb' 8 4 :=
  eq_extractLsb'_of_toNat_eq (fieldX_toNat w)

theorem fieldY_eq_extractLsb' (w : Word) : fieldY w = w.extractLsb' 4 4 :=
  eq_extractLsb'_of_toNat_eq (fieldY_toNat w)

theorem fieldN_eq_extractLsb' (w : Word) : fieldN w = w.extractLsb' 0 4 :=
  eq_extractLsb'_of_toNat_eq (by rw [fieldN_toNat, pow_zero, Nat.div_one]; rfl)

theorem fieldNN_eq_extractLsb' (w : Word) : fieldNN w = w.extractLsb' 0 8 :=
  eq_extractLsb'_of_toNat_eq (by rw [fieldNN_toNat, pow_zero, Nat.div_one]; rfl)

theorem fieldNNN_eq_extractLsb' (w : Word) : fieldNNN w = w.extractLsb' 0 12 :=
  eq_extractLsb'_of_toNat_eq (by rw [fieldNNN_toNat, pow_zero, Nat.div_one]; rfl)

/-- The class is left in place: its digit stands over twelve zero bits. -/
theorem fieldClass_eq_extractLsb'_append (w : Word) : fieldClass w = w.extractLsb' 12 4 ++ 0#12 := by
  have hw := w.isLt
  apply BitVec.eq_of_toNat_eq
  rw [fieldClass_toNat, toNat_append_eq, BitVec.extractLsb'_toNat, Nat.shiftRight_eq_div_pow, BitVec.toNat_ofNat]
  omega

theorem fieldNN_eq_append (w : Word) : fieldNN w = fieldY w ++ fieldN w := by
  rw [fieldNN_eq_extractLsb', fieldY_eq_extractLsb', fieldN_eq_extractLsb']
  exact (BitVec.extractLsb'_append_extractLsb'_eq_extractLsb' (start₁ := 0) (len₁ := 4) (len₂ := 4) rfl).symm

theorem fieldNNN_eq_append (w : Word) : fieldNNN w = fieldX w ++ fieldNN w := by
  rw [fieldNNN_eq_extractLsb', fieldX_eq_extractLsb', fieldNN_eq_extractLsb']
  exact (BitVec.extractLsb'_append_extractLsb'_eq_extractLsb' (start₁ := 0) (len₁ := 8) (len₂ := 4) rfl).symm

theorem fieldNNN_eq_append_append (w : Word) : fieldNNN w = fieldX w ++ fieldY w ++ fieldN w := by
  rw [fieldNNN_eq_append, fieldNN_eq_append]
  exact (BitVec.append_assoc (x₁ := fieldX w) (x₂ := fieldY w) (x₃ := fieldN w)).symm

/-- Settles O1: six slices and the three overlaps, each by its lemma. -/
theorem fieldsAreBitSlices : Obligations.FieldsAreBitSlices := by
  unfold Obligations.FieldsAreBitSlices
  intro w
  exact ⟨fieldClass_eq_extractLsb'_append w, fieldX_eq_extractLsb' w, fieldY_eq_extractLsb' w, fieldN_eq_extractLsb' w,
    fieldNN_eq_extractLsb' w, fieldNNN_eq_extractLsb' w, fieldNN_eq_append w, fieldNNN_eq_append w, fieldNNN_eq_append_append w⟩

end Sys2Proof
end

section
/-! PROOFS. The notification `KEY` (44_keyboard.md R144): the state it leaves while the core runs and while it waits, the fields and
the frame of each, then O21. -/

namespace Sys2Proof.Machine

section
variable {s : State}

theorem keyPressed_of_running (h : s.isHalted = false) (k : Nibble) :
    s.keyPressed k = { s with keyValid := true, keyCode := k } := by
  simp [State.keyPressed, h]

theorem keyPressed_of_waiting (h : s.isHalted = true) (k : Nibble) :
    s.keyPressed k = ({ ({ s with keyValid := true, keyCode := k } : State).writeReg s.pendingKeyWaitRegister (k.setWidth 8) with
      isHalted := false, hasPendingKeyWait := false } : State).advance := by
  simp [State.keyPressed, h]

@[simp] theorem keyPressed_keyValid (s : State) (k : Nibble) : (s.keyPressed k).keyValid = true := by
  cases h : s.isHalted with
  | false => rw [keyPressed_of_running h]
  | true => rw [keyPressed_of_waiting h]; rfl

@[simp] theorem keyPressed_keyCode (s : State) (k : Nibble) : (s.keyPressed k).keyCode = k := by
  cases h : s.isHalted with
  | false => rw [keyPressed_of_running h]
  | true => rw [keyPressed_of_waiting h]; rfl

/-- After a `KEY` the core runs, whether it waited before or not. -/
@[simp] theorem keyPressed_isHalted (s : State) (k : Nibble) : (s.keyPressed k).isHalted = false := by
  cases h : s.isHalted with
  | false => rw [keyPressed_of_running h, ← h]
  | true => rw [keyPressed_of_waiting h]; rfl

theorem keyPressed_hasPendingKeyWait_of_waiting (h : s.isHalted = true) (k : Nibble) :
    (s.keyPressed k).hasPendingKeyWait = false := by
  rw [keyPressed_of_waiting h]
  rfl

theorem keyPressed_pc_of_waiting (h : s.isHalted = true) (k : Nibble) : (s.keyPressed k).pc = s.pc + 2#16 := by
  rw [keyPressed_of_waiting h]
  rfl

theorem keyPressed_pc_toNat_of_waiting (h : s.isHalted = true) (k : Nibble) :
    (s.keyPressed k).pc.toNat = (s.pc.toNat + 2) % 65536 := by
  rw [keyPressed_pc_of_waiting h]
  exact BitVec.toNat_add s.pc 2#16

/-- Only the waiting register reads differently after the `KEY` that ends the wait: it reads the key. -/
theorem readReg_keyPressed_of_waiting (h : s.isHalted = true) (k : Nibble) (r : Reg) :
    (s.keyPressed k).readReg r = if r = s.pendingKeyWaitRegister then k.setWidth 8 else s.readReg r := by
  rw [keyPressed_of_waiting h]
  exact readReg_writeReg { s with keyValid := true, keyCode := k } s.pendingKeyWaitRegister r (k.setWidth 8)

theorem readReg_pendingKeyWaitRegister_keyPressed (h : s.isHalted = true) (k : Nibble) :
    ((s.keyPressed k).readReg s.pendingKeyWaitRegister).toNat = k.toNat := by
  rw [readReg_keyPressed_of_waiting h, if_pos rfl]
  exact BitVec.toNat_setWidth_of_le (by decide)

theorem keyPressed_frame_of_running (h : s.isHalted = false) (k : Nibble) : OnlyChanges [.key] s (s.keyPressed k) := by
  rw [keyPressed_of_running h]
  intro p hp
  cases p
  case key => exact absurd hp (by simp)
  case wait => exact ⟨rfl, rfl⟩
  all_goals rfl

theorem keyPressed_frame_of_waiting (h : s.isHalted = true) (k : Nibble) :
    OnlyChanges [.key, .reg s.pendingKeyWaitRegister, .wait, .pc] s (s.keyPressed k) := by
  intro p hp
  cases p
  case reg r =>
    have hr : r ≠ s.pendingKeyWaitRegister := by simpa using hp
    exact (readReg_keyPressed_of_waiting h k r).trans (if_neg hr)
  case key => exact absurd hp (by simp)
  case wait => exact absurd hp (by simp)
  case pc => exact absurd hp (by simp)
  all_goals rw [keyPressed_of_waiting h]; rfl

end

/-- Settles O21: the key is recorded in both states; a running core keeps all else, a waiting core is resolved. -/
theorem keyRecordsAndResolvesWait : Obligations.KeyRecordsAndResolvesWait := by
  unfold Obligations.KeyRecordsAndResolvesWait
  intro s k
  exact ⟨s.keyPressed k, rfl, keyPressed_keyValid s k, keyPressed_keyCode s k, fun h => keyPressed_frame_of_running h k,
    fun h => ⟨readReg_pendingKeyWaitRegister_keyPressed h k, keyPressed_isHalted s k,
      keyPressed_hasPendingKeyWait_of_waiting h k, keyPressed_pc_toNat_of_waiting h k, keyPressed_frame_of_waiting h k⟩⟩

end Sys2Proof.Machine
end

section
/-! PROOFS. Decoder and encoder are inverse to each other (30_encoding.md R63, R65, R66), then O4, O5, and what follows from it of the
rows of R66, the unrecognized words of R68, the ignored bits of R69: O2, O3, O6, O7. -/

namespace Sys2Proof

/-! ### Decoding an encoded instruction -/

/-- The fields of an encoded instruction select its own arm of the lookup and give its operands back. -/
theorem decodeWord_encode (i : Instr) : decodeWord (encode i) = .ok i := by
  cases i
  case cls | ret => simp [encode, decodeWord, decodeClass0]
  case ldReg | orReg | andReg | xorReg | addReg | subReg | shr | subnReg | shl => simp [encode, decodeWord, decodeClass8]
  case skp | sknp => simp [encode, decodeWord, decodeClassE]
  case ldVxDt | ldVxK | ldDtVx | ldStVx | addI | ldF | ldB | stRegs | ldRegs => simp [encode, decodeWord, decodeClassF]
  all_goals simp [encode, decodeWord]

theorem decodeBytes_encodeBytes_append (i : Instr) (rest : List Byte) : decodeBytes (encodeBytes i ++ rest) = .ok (i, rest) := by
  simp [encodeBytes, decodeBytes, decodeWord_encode]

/-- Settles O4: the word by `decodeWord_encode`; the two bytes make up that word again. -/
theorem decodeOfEncodeIsIdentity : Obligations.DecodeOfEncodeIsIdentity := by
  unfold Obligations.DecodeOfEncodeIsIdentity
  exact fun i => ⟨decodeWord_encode i, decodeBytes_encodeBytes_append i⟩

/-! ### The first level of the lookup (R65) -/

/-- What a word decodes to, class by class. -/
theorem decodeWord_cases (w : Word) :
    (fieldClass w = 0x0000#16 ∧ decodeWord w = decodeClass0 w) ∨
    (fieldClass w = 0x1000#16 ∧ decodeWord w = .ok (.jp (fieldNNN w))) ∨
    (fieldClass w = 0x2000#16 ∧ decodeWord w = .ok (.call (fieldNNN w))) ∨
    (fieldClass w = 0x3000#16 ∧ decodeWord w = .ok (.seImm (fieldX w) (fieldNN w))) ∨
    (fieldClass w = 0x4000#16 ∧ decodeWord w = .ok (.sneImm (fieldX w) (fieldNN w))) ∨
    (fieldClass w = 0x5000#16 ∧ decodeWord w = .ok (.seReg (fieldX w) (fieldY w) (fieldN w))) ∨
    (fieldClass w = 0x6000#16 ∧ decodeWord w = .ok (.ldImm (fieldX w) (fieldNN w))) ∨
    (fieldClass w = 0x7000#16 ∧ decodeWord w = .ok (.addImm (fieldX w) (fieldNN w))) ∨
    (fieldClass w = 0x8000#16 ∧ decodeWord w = decodeClass8 w) ∨
    (fieldClass w = 0x9000#16 ∧ decodeWord w = .ok (.sneReg (fieldX w) (fieldY w) (fieldN w))) ∨
    (fieldClass w = 0xA000#16 ∧ decodeWord w = .ok (.ldI (fieldNNN w))) ∨
    (fieldClass w = 0xB000#16 ∧ decodeWord w = .ok (.jpV0 (fieldNNN w))) ∨
    (fieldClass w = 0xC000#16 ∧ decodeWord w = .ok (.rnd (fieldX w) (fieldNN w))) ∨
    (fieldClass w = 0xD000#16 ∧ decodeWord w = .ok (.drw (fieldX w) (fieldY w) (fieldN w))) ∨
    (fieldClass w = 0xE000#16 ∧ decodeWord w = decodeClassE w) ∨
    (fieldClass w = 0xF000#16 ∧ decodeWord w = decodeClassF w) := by
  rcases fieldClass_cases w with hc | hc | hc | hc | hc | hc | hc | hc | hc | hc | hc | hc | hc | hc | hc | hc <;>
    (simp only [hc, BitVec.reduceEq, false_and, true_and, false_or, or_false]; simp [decodeWord, hc])

/-! ### The second level of the lookup (R65, R68): no instruction for the listed fields, else the instruction of the word -/

theorem decodeClass0_cases (w : Word) :
    (fieldNN w ∉ [0xE0#8, 0xEE#8] ∧ decodeClass0 w = .error (.unrecognizedInstruction w)) ∨
    (fieldNN w ∈ [0xE0#8, 0xEE#8] ∧ ∃ i, decodeClass0 w = .ok i ∧ encode i = wordXNN 0x0#4 (fieldX w) (fieldNN w)) := by
  by_cases h : fieldNN w ∈ [0xE0#8, 0xEE#8]
  · refine .inr ⟨h, ?_⟩
    simp only [List.mem_cons, List.not_mem_nil, or_false] at h
    rcases h with h | h <;> simp [decodeClass0, h, encode]
  · refine .inl ⟨h, ?_⟩
    simp only [List.mem_cons, List.not_mem_nil, or_false, not_or] at h
    simp [decodeClass0, h]

theorem decodeClass8_cases (w : Word) :
    (fieldN w ∈ [0x8#4, 0x9#4, 0xA#4, 0xB#4, 0xC#4, 0xD#4, 0xF#4] ∧
      decodeClass8 w = .error (.unrecognizedInstruction w)) ∨
    (fieldN w ∉ [0x8#4, 0x9#4, 0xA#4, 0xB#4, 0xC#4, 0xD#4, 0xF#4] ∧
      ∃ i, decodeClass8 w = .ok i ∧ encode i = wordXYN 0x8#4 (fieldX w) (fieldY w) (fieldN w)) := by
  have others : ∀ n : Nibble, n ∉ [0x8#4, 0x9#4, 0xA#4, 0xB#4, 0xC#4, 0xD#4, 0xF#4] ↔
      n ∈ [0x0#4, 0x1#4, 0x2#4, 0x3#4, 0x4#4, 0x5#4, 0x6#4, 0x7#4, 0xE#4] := by decide
  by_cases h : fieldN w ∈ [0x8#4, 0x9#4, 0xA#4, 0xB#4, 0xC#4, 0xD#4, 0xF#4]
  · refine .inl ⟨h, ?_⟩
    simp only [List.mem_cons, List.not_mem_nil, or_false] at h
    rcases h with h | h | h | h | h | h | h <;> simp [decodeClass8, h]
  · refine .inr ⟨h, ?_⟩
    rw [others] at h
    simp only [List.mem_cons, List.not_mem_nil, or_false] at h
    rcases h with h | h | h | h | h | h | h | h | h <;> simp [decodeClass8, h, encode]

theorem decodeClassE_cases (w : Word) :
    (fieldNN w ∉ [0x9E#8, 0xA1#8] ∧ decodeClassE w = .error (.unrecognizedInstruction w)) ∨
    (fieldNN w ∈ [0x9E#8, 0xA1#8] ∧ ∃ i, decodeClassE w = .ok i ∧ encode i = wordXNN 0xE#4 (fieldX w) (fieldNN w)) := by
  by_cases h : fieldNN w ∈ [0x9E#8, 0xA1#8]
  · refine .inr ⟨h, ?_⟩
    simp only [List.mem_cons, List.not_mem_nil, or_false] at h
    rcases h with h | h <;> simp [decodeClassE, h, encode]
  · refine .inl ⟨h, ?_⟩
    simp only [List.mem_cons, List.not_mem_nil, or_false, not_or] at h
    simp [decodeClassE, h]

theorem decodeClassF_cases (w : Word) :
    (fieldNN w ∉ [0x07#8, 0x0A#8, 0x15#8, 0x18#8, 0x1E#8, 0x29#8, 0x33#8, 0x55#8, 0x65#8] ∧
      decodeClassF w = .error (.unrecognizedInstruction w)) ∨
    (fieldNN w ∈ [0x07#8, 0x0A#8, 0x15#8, 0x18#8, 0x1E#8, 0x29#8, 0x33#8, 0x55#8, 0x65#8] ∧
      ∃ i, decodeClassF w = .ok i ∧ encode i = wordXNN 0xF#4 (fieldX w) (fieldNN w)) := by
  by_cases h : fieldNN w ∈ [0x07#8, 0x0A#8, 0x15#8, 0x18#8, 0x1E#8, 0x29#8, 0x33#8, 0x55#8, 0x65#8]
  · refine .inr ⟨h, ?_⟩
    simp only [List.mem_cons, List.not_mem_nil, or_false] at h
    rcases h with h | h | h | h | h | h | h | h | h <;> simp [decodeClassF, h, encode]
  · refine .inl ⟨h, ?_⟩
    simp only [List.mem_cons, List.not_mem_nil, or_false, not_or] at h
    simp [decodeClassF, h]

/-- The words that R68 lists as no instruction. -/
def UnrecognizedWord (w : Word) : Prop :=
  (fieldClass w = 0x0000#16 ∧ fieldNN w ∉ [0xE0#8, 0xEE#8]) ∨
  (fieldClass w = 0x8000#16 ∧ fieldN w ∈ [0x8#4, 0x9#4, 0xA#4, 0xB#4, 0xC#4, 0xD#4, 0xF#4]) ∨
  (fieldClass w = 0xE000#16 ∧ fieldNN w ∉ [0x9E#8, 0xA1#8]) ∨
  (fieldClass w = 0xF000#16 ∧ fieldNN w ∉ [0x07#8, 0x0A#8, 0x15#8, 0x18#8, 0x1E#8, 0x29#8, 0x33#8, 0x55#8, 0x65#8])

/-- All the decoder can do: a listed word fails by its own name, any other word is the encoding of what it decodes to. -/
theorem decodeWord_error_or_ok (w : Word) :
    (UnrecognizedWord w ∧ decodeWord w = .error (.unrecognizedInstruction w)) ∨
    (¬ UnrecognizedWord w ∧ ∃ i, decodeWord w = .ok i ∧ encode i = w) := by
  rcases decodeWord_cases w with ⟨hc, hd⟩ | ⟨hc, hd⟩ | ⟨hc, hd⟩ | ⟨hc, hd⟩ | ⟨hc, hd⟩ | ⟨hc, hd⟩ | ⟨hc, hd⟩ | ⟨hc, hd⟩ |
      ⟨hc, hd⟩ | ⟨hc, hd⟩ | ⟨hc, hd⟩ | ⟨hc, hd⟩ | ⟨hc, hd⟩ | ⟨hc, hd⟩ | ⟨hc, hd⟩ | ⟨hc, hd⟩
  · rw [hd]
    rcases decodeClass0_cases w with ⟨hn, he⟩ | ⟨hn, i, he, hw⟩
    · exact .inl ⟨by simp [UnrecognizedWord, hc, hn], he⟩
    · exact .inr ⟨by simp [UnrecognizedWord, hc, hn], i, he, hw.trans (wordXNN_fields (by rw [hc]; rfl))⟩
  · exact .inr ⟨by simp [UnrecognizedWord, hc], _, hd, wordNNN_fields (c := 0x1#4) (by rw [hc]; rfl)⟩
  · exact .inr ⟨by simp [UnrecognizedWord, hc], _, hd, wordNNN_fields (c := 0x2#4) (by rw [hc]; rfl)⟩
  · exact .inr ⟨by simp [UnrecognizedWord, hc], _, hd, wordXNN_fields (c := 0x3#4) (by rw [hc]; rfl)⟩
  · exact .inr ⟨by simp [UnrecognizedWord, hc], _, hd, wordXNN_fields (c := 0x4#4) (by rw [hc]; rfl)⟩
  · exact .inr ⟨by simp [UnrecognizedWord, hc], _, hd, wordXYN_fields (c := 0x5#4) (by rw [hc]; rfl)⟩
  · exact .inr ⟨by simp [UnrecognizedWord, hc], _, hd, wordXNN_fields (c := 0x6#4) (by rw [hc]; rfl)⟩
  · exact .inr ⟨by simp [UnrecognizedWord, hc], _, hd, wordXNN_fields (c := 0x7#4) (by rw [hc]; rfl)⟩
  · rw [hd]
    rcases decodeClass8_cases w with ⟨hn, he⟩ | ⟨hn, i, he, hw⟩
    · exact .inl ⟨by simp [UnrecognizedWord, hc, hn], he⟩
    · exact .inr ⟨by simp [UnrecognizedWord, hc, hn], i, he, hw.trans (wordXYN_fields (by rw [hc]; rfl))⟩
  · exact .inr ⟨by simp [UnrecognizedWord, hc], _, hd, wordXYN_fields (c := 0x9#4) (by rw [hc]; rfl)⟩
  · exact .inr ⟨by simp [UnrecognizedWord, hc], _, hd, wordNNN_fields (c := 0xA#4) (by rw [hc]; rfl)⟩
  · exact .inr ⟨by simp [UnrecognizedWord, hc], _, hd, wordNNN_fields (c := 0xB#4) (by rw [hc]; rfl)⟩
  · exact .inr ⟨by simp [UnrecognizedWord, hc], _, hd, wordXNN_fields (c := 0xC#4) (by rw [hc]; rfl)⟩
  · exact .inr ⟨by simp [UnrecognizedWord, hc], _, hd, wordXYN_fields (c := 0xD#4) (by rw [hc]; rfl)⟩
  · rw [hd]
    rcases decodeClassE_cases w with ⟨hn, he⟩ | ⟨hn, i, he, hw⟩
    · exact .inl ⟨by simp [UnrecognizedWord, hc, hn], he⟩
    · exact .inr ⟨by simp [UnrecognizedWord, hc, hn], i, he, hw.trans (wordXNN_fields (by rw [hc]; rfl))⟩
  · rw [hd]
    rcases decodeClassF_cases w with ⟨hn, he⟩ | ⟨hn, i, he, hw⟩
    · exact .inl ⟨by simp [UnrecognizedWord, hc, hn], he⟩
    · exact .inr ⟨by simp [UnrecognizedWord, hc, hn], i, he, hw.trans (wordXNN_fields (by rw [hc]; rfl))⟩

/-! ### Encoding a decoded instruction, and the words that decode to none -/

/-- A word decodes to an instruction exactly if it is the instruction's word. -/
theorem decodeWord_eq_ok_iff {w : Word} {i : Instr} : decodeWord w = .ok i ↔ encode i = w := by
  refine ⟨fun h => ?_, fun h => h ▸ decodeWord_encode i⟩
  rcases decodeWord_error_or_ok w with ⟨-, he⟩ | ⟨-, j, hj, hw⟩
  · rw [he] at h
    cases h
  · rw [hj] at h
    cases h
    exact hw

/-- Settles O5: class by class, the word is put together again from its fields. -/
theorem encodeOfDecodeIsIdentity : Obligations.EncodeOfDecodeIsIdentity := by
  unfold Obligations.EncodeOfDecodeIsIdentity
  exact fun _ _ h => decodeWord_eq_ok_iff.mp h

theorem not_ok_iff_unrecognizedWord {w : Word} : (∀ i, decodeWord w ≠ .ok i) ↔ UnrecognizedWord w := by
  rcases decodeWord_error_or_ok w with ⟨hu, he⟩ | ⟨hu, i, hi, -⟩
  · simp [hu, he]
  · simp [hu, hi]

theorem decodeWord_of_unrecognizedWord {w : Word} (h : UnrecognizedWord w) :
    decodeWord w = .error (.unrecognizedInstruction w) := by
  rcases decodeWord_error_or_ok w with ⟨-, he⟩ | ⟨hu, -⟩
  · exact he
  · exact absurd h hu

/-- A running core that fetches a word of no instruction faults by the word's name (R68, R162). -/
theorem stepInstr_not_decoded {s : Machine.State} {w : Word} (h : s.isHalted = false) (hf : s.fetchWord = .ok w)
    (hd : ∀ i, decodeWord w ≠ .ok i) : Machine.stepInstr s = .fault (.unrecognizedInstruction w) := by
  simp [Machine.stepInstr, h, hf, decodeWord_of_unrecognizedWord (not_ok_iff_unrecognizedWord.mp hd), Machine.raiseFault]

/-- Settles O3: by what the decoder can do, and by the `STEP` that fetches such a word. -/
theorem unrecognizedWordsAreTheListedOnes : Obligations.UnrecognizedWordsAreTheListedOnes := by
  unfold Obligations.UnrecognizedWordsAreTheListedOnes
  exact fun w => ⟨not_ok_iff_unrecognizedWord, fun hd => ⟨decodeWord_of_unrecognizedWord (not_ok_iff_unrecognizedWord.mp hd),
    fun _ hs hf => stepInstr_not_decoded hs hf hd⟩⟩

/-! ### The rows of the opcode map (R66) -/

section
variable {w : Word}

/-- A mask that fixes the class alone. -/
theorem mask_class_iff (w : Word) (c : Nibble) :
    w &&& 0xF000#16 = BitVec.ofNat 16 (c.toNat * 4096) ↔ (fieldClass w).toNat = c.toNat * 4096 := by
  have hc := c.isLt
  rw [← BitVec.toNat_inj, BitVec.toNat_ofNat, Nat.mod_eq_of_lt (by omega)]
  rfl

theorem mask_class_iff_wordNNN (c : Nibble) :
    w &&& 0xF000#16 = BitVec.ofNat 16 (c.toNat * 4096) ↔ wordNNN c (fieldNNN w) = w := by
  refine ⟨fun h => wordNNN_fields ((mask_class_iff w c).mp h), fun h => ?_⟩
  have e := fieldClass_wordNNN c (fieldNNN w)
  rwa [h] at e

theorem mask_class_iff_wordXNN (c : Nibble) :
    w &&& 0xF000#16 = BitVec.ofNat 16 (c.toNat * 4096) ↔ wordXNN c (fieldX w) (fieldNN w) = w := by
  refine ⟨fun h => wordXNN_fields ((mask_class_iff w c).mp h), fun h => ?_⟩
  have e := fieldClass_wordXNN c (fieldX w) (fieldNN w)
  rwa [h] at e

theorem mask_class_iff_wordXYN (c : Nibble) :
    w &&& 0xF000#16 = BitVec.ofNat 16 (c.toNat * 4096) ↔ wordXYN c (fieldX w) (fieldY w) (fieldN w) = w := by
  refine ⟨fun h => wordXYN_fields ((mask_class_iff w c).mp h), fun h => ?_⟩
  have e := fieldClass_wordXYN c (fieldX w) (fieldY w) (fieldN w)
  rwa [h] at e

theorem mask_classNN_iff_wordXNN (c : Nibble) (nn : Byte) :
    w &&& 0xF0FF#16 = wordXNN c 0x0#4 nn ↔ wordXNN c (fieldX w) nn = w := by
  have hb : wordXNN c 0x0#4 nn &&& 0x0F00#16 = 0#16 := by
    apply BitVec.eq_of_getLsbD_eq
    intro i hi
    rw [BitVec.getLsbD_and, wordXNN, BitVec.getLsbD_append, BitVec.getLsbD_append]
    interval_cases i <;> simp
  rw [mask_classNN_iff hb, fieldClass_wordXNN, fieldNN_wordXNN]
  constructor
  · rintro ⟨hc, rfl⟩
    exact (mask_class_iff_wordXNN c).mp hc
  · intro h
    have ec := fieldClass_wordXNN c (fieldX w) nn
    have en := fieldNN_wordXNN c (fieldX w) nn
    rw [h] at ec en
    exact ⟨ec, en⟩

theorem mask_classN_iff_wordXYN (c n : Nibble) :
    w &&& 0xF00F#16 = wordXYN c 0x0#4 0x0#4 n ↔ wordXYN c (fieldX w) (fieldY w) n = w := by
  have hb : wordXYN c 0x0#4 0x0#4 n &&& 0x0FF0#16 = 0#16 := by
    apply BitVec.eq_of_getLsbD_eq
    intro i hi
    rw [BitVec.getLsbD_and, wordXYN, BitVec.getLsbD_append, BitVec.getLsbD_append, BitVec.getLsbD_append]
    interval_cases i <;> simp
  rw [mask_classN_iff hb, fieldClass_wordXYN, fieldN_wordXYN]
  constructor
  · rintro ⟨hc, rfl⟩
    exact (mask_class_iff_wordXYN c).mp hc
  · intro h
    have ec := fieldClass_wordXYN c (fieldX w) (fieldY w) n
    have en := fieldN_wordXYN c (fieldX w) (fieldY w) n
    rw [h] at ec en
    exact ⟨ec, en⟩

end

/-! A word meets a row's mask and match exactly if it is the word of the row's instruction with the word's own fields. -/

theorem opcodeRows1_match : ∀ r ∈ opcodeRows1, ∀ w : Word, w &&& r.mask = r.bits ↔ encode (r.build w) = w := by
  unfold opcodeRows1
  simp only [List.forall_mem_cons]
  exact ⟨fun _ => mask_classNN_iff_wordXNN 0x0#4 0xE0#8, fun _ => mask_classNN_iff_wordXNN 0x0#4 0xEE#8,
    fun _ => mask_class_iff_wordNNN 0x1#4, fun _ => mask_class_iff_wordNNN 0x2#4, fun _ => mask_class_iff_wordXNN 0x3#4,
    fun _ => mask_class_iff_wordXNN 0x4#4, fun _ => mask_class_iff_wordXYN 0x5#4, fun _ => mask_class_iff_wordXNN 0x6#4,
    fun _ => mask_class_iff_wordXNN 0x7#4, fun _ hr => absurd hr List.not_mem_nil⟩

theorem opcodeRows2_match : ∀ r ∈ opcodeRows2, ∀ w : Word, w &&& r.mask = r.bits ↔ encode (r.build w) = w := by
  unfold opcodeRows2
  simp only [List.forall_mem_cons]
  exact ⟨fun _ => mask_classN_iff_wordXYN 0x8#4 0x0#4, fun _ => mask_classN_iff_wordXYN 0x8#4 0x1#4,
    fun _ => mask_classN_iff_wordXYN 0x8#4 0x2#4, fun _ => mask_classN_iff_wordXYN 0x8#4 0x3#4,
    fun _ => mask_classN_iff_wordXYN 0x8#4 0x4#4, fun _ => mask_classN_iff_wordXYN 0x8#4 0x5#4,
    fun _ => mask_classN_iff_wordXYN 0x8#4 0x6#4, fun _ => mask_classN_iff_wordXYN 0x8#4 0x7#4,
    fun _ => mask_classN_iff_wordXYN 0x8#4 0xE#4, fun _ hr => absurd hr List.not_mem_nil⟩

theorem opcodeRows3_match : ∀ r ∈ opcodeRows3, ∀ w : Word, w &&& r.mask = r.bits ↔ encode (r.build w) = w := by
  unfold opcodeRows3
  simp only [List.forall_mem_cons]
  exact ⟨fun _ => mask_class_iff_wordXYN 0x9#4, fun _ => mask_class_iff_wordNNN 0xA#4, fun _ => mask_class_iff_wordNNN 0xB#4,
    fun _ => mask_class_iff_wordXNN 0xC#4, fun _ => mask_class_iff_wordXYN 0xD#4,
    fun _ => mask_classNN_iff_wordXNN 0xE#4 0x9E#8, fun _ => mask_classNN_iff_wordXNN 0xE#4 0xA1#8,
    fun _ hr => absurd hr List.not_mem_nil⟩

theorem opcodeRows4_match : ∀ r ∈ opcodeRows4, ∀ w : Word, w &&& r.mask = r.bits ↔ encode (r.build w) = w := by
  unfold opcodeRows4
  simp only [List.forall_mem_cons]
  exact ⟨fun _ => mask_classNN_iff_wordXNN 0xF#4 0x07#8, fun _ => mask_classNN_iff_wordXNN 0xF#4 0x0A#8,
    fun _ => mask_classNN_iff_wordXNN 0xF#4 0x15#8, fun _ => mask_classNN_iff_wordXNN 0xF#4 0x18#8,
    fun _ => mask_classNN_iff_wordXNN 0xF#4 0x1E#8, fun _ => mask_classNN_iff_wordXNN 0xF#4 0x29#8,
    fun _ => mask_classNN_iff_wordXNN 0xF#4 0x33#8, fun _ => mask_classNN_iff_wordXNN 0xF#4 0x55#8,
    fun _ => mask_classNN_iff_wordXNN 0xF#4 0x65#8, fun _ hr => absurd hr List.not_mem_nil⟩

/-- A word meets a row's mask and match exactly if it decodes to the row's instruction with the word's own fields (R66). -/
theorem row_match_iff {r : OpcodeRow} (hr : r ∈ opcodeRows) (w : Word) :
    w &&& r.mask = r.bits ↔ decodeWord w = .ok (r.build w) := by
  rw [decodeWord_eq_ok_iff]
  simp only [opcodeRows, List.mem_append] at hr
  rcases hr with ((hr | hr) | hr) | hr
  · exact opcodeRows1_match r hr w
  · exact opcodeRows2_match r hr w
  · exact opcodeRows3_match r hr w
  · exact opcodeRows4_match r hr w

/-- Every instruction has a row that builds it from its own word. -/
theorem exists_row (i : Instr) : ∃ r ∈ opcodeRows, r.build (encode i) = i := by
  simp only [opcodeRows, opcodeRows1, opcodeRows2, opcodeRows3, opcodeRows4, List.cons_append, List.nil_append,
    List.exists_mem_cons_iff]
  cases i <;> simp only [reduceCtorEq, false_or] <;> simp [encode]

theorem decodeWord_eq_decodeByRows (w : Word) : decodeWord w = decodeByRows w := by
  unfold decodeByRows
  cases hf : opcodeRows.find? (fun r => w &&& r.mask == r.bits) with
  | some r => exact (row_match_iff (List.mem_of_find?_eq_some hf) w).mp (by simpa using List.find?_some hf)
  | none =>
    refine decodeWord_of_unrecognizedWord (not_ok_iff_unrecognizedWord.mp fun i hi => ?_)
    obtain ⟨r, hr, hb⟩ := exists_row i
    rw [decodeWord_eq_ok_iff.mp hi] at hb
    exact List.find?_eq_none.mp hf r hr (by simpa using (row_match_iff hr w).mpr (hb ▸ hi))

/-- Settles O2: 34 rows, disjoint as some bit that both fix differs; the search of the rows and the lookup agree. -/
theorem twoLevelDecodeIsOpcodeMap : Obligations.TwoLevelDecodeIsOpcodeMap := by
  unfold Obligations.TwoLevelDecodeIsOpcodeMap
  refine ⟨rfl, opcodeRows_disjoint.imp fun hne w => ?_, decodeWord_eq_decodeByRows, fun r hr w => row_match_iff hr w⟩
  rintro ⟨h, h'⟩
  apply hne
  rw [← h, ← h']
  ac_rfl

/-! ### Ignored bits (R69) and sample words -/

/-- Settles O6: the words decode as their own encodings do; `exec` and the canonical words ignore the bits by definition. -/
theorem dontCareBitsHaveNoEffect : Obligations.DontCareBitsHaveNoEffect := by
  unfold Obligations.DontCareBitsHaveNoEffect
  refine ⟨fun ign => ⟨decodeWord_encode (.cls ign), decodeWord_encode (.ret ign)⟩,
    fun x y ign => ⟨decodeWord_encode (.seReg x y ign), decodeWord_encode (.sneReg x y ign)⟩,
    fun i s => ?_, fun x y ign => ⟨rfl, rfl, rfl, rfl, rfl, rfl⟩⟩
  cases i <;> rfl

/-- Settles O7: nine closed words. -/
theorem sampleWordsDecode : Obligations.SampleWordsDecode := by
  unfold Obligations.SampleWordsDecode
  decide

end Sys2Proof
end

section
/-! PROOFS. What each instruction may change (10_state.md R22, write column): the frame of every operation on the state, then of every
instruction, as one table. -/

namespace Sys2Proof.Machine

/-! ### Frames -/

section
variable {ps qs : List StatePart} {s t u : State}

theorem onlyChanges_mono (h : OnlyChanges ps s t) (hs : ps ⊆ qs) : OnlyChanges qs s t :=
  fun p hp => h p fun e => hp (hs e)

/-- An operation that changes `ps`, then one that changes `qs`. -/
theorem onlyChanges_append (h : OnlyChanges ps s t) (h' : OnlyChanges qs t u) : OnlyChanges (ps ++ qs) s u :=
  onlyChanges_trans (onlyChanges_mono h (List.subset_append_left ps qs)) (onlyChanges_mono h' (List.subset_append_right ps qs))

/-- The last operation before `next` or a jump is the write of `PC`. -/
theorem onlyChanges_setPc (h : OnlyChanges ps s t) (w : Word) : OnlyChanges (.pc :: ps) s (t.setPc w) := by
  intro p hp
  rw [List.mem_cons, not_or] at hp
  have same := h p hp.2
  cases p with
  | pc => exact absurd rfl hp.1
  | _ => exact same

theorem onlyChanges_advance (h : OnlyChanges ps s t) : OnlyChanges (.pc :: ps) s t.advance :=
  onlyChanges_setPc h _

theorem mem_of_not_same {p : StatePart} (h : OnlyChanges ps s t) (hp : ¬ p.Same s t) : p ∈ ps :=
  not_not.mp fun e => hp (h p e)

end

theorem setPc_frame (s : State) (w : Word) : OnlyChanges [.pc] s (s.setPc w) :=
  onlyChanges_setPc (onlyChanges_refl [] s) w

theorem skipIf_frame (s : State) (c : Bool) : OnlyChanges [.pc] s (s.skipIf c) := by
  cases c
  · exact setPc_frame s _
  · exact setPc_frame s _

theorem writeReg_frame (s : State) (x : Reg) (b : Byte) : OnlyChanges [.reg x] s (s.writeReg x b) := by
  intro p hp
  cases p with
  | reg r =>
    have hr : r ≠ x := by simpa using hp
    exact (readReg_writeReg s x r b).trans (if_neg hr)
  | key | wait => exact ⟨rfl, rfl⟩
  | _ => rfl

theorem setIndex_frame (s : State) (w : Word) : OnlyChanges [.index] s (s.setIndex w) := by
  intro p hp
  cases p with
  | index => exact absurd hp (by simp)
  | key | wait => exact ⟨rfl, rfl⟩
  | _ => rfl

theorem setDelay_frame (s : State) (b : Byte) : OnlyChanges [.delay] s { s with dt := b } := by
  intro p hp
  cases p with
  | delay => exact absurd hp (by simp)
  | key | wait => exact ⟨rfl, rfl⟩
  | _ => rfl

theorem setSound_frame (s : State) (b : Byte) : OnlyChanges [.sound] s { s with st := b } := by
  intro p hp
  cases p with
  | sound => exact absurd hp (by simp)
  | key | wait => exact ⟨rfl, rfl⟩
  | _ => rfl

theorem setDraws_frame (s : State) (n : Nat) : OnlyChanges [.draws] s { s with rndDraws := n } := by
  intro p hp
  cases p with
  | draws => exact absurd hp (by simp)
  | key | wait => exact ⟨rfl, rfl⟩
  | _ => rfl

theorem setFramebuffer_frame (s : State) (fb : Framebuffer) : OnlyChanges allPixels s { s with fb := fb } := by
  intro p hp
  cases p with
  | pixel q => exact absurd (mem_allPixels q) hp
  | key | wait => exact ⟨rfl, rfl⟩
  | _ => rfl

theorem setWait_frame (s : State) (halted pending : Bool) (x : Reg) : OnlyChanges [.wait, .waitReg] s
    { s with isHalted := halted, hasPendingKeyWait := pending, pendingKeyWaitRegister := x } := by
  intro p hp
  cases p with
  | wait => exact absurd hp (by simp)
  | waitReg => exact absurd hp (by simp)
  | key => exact ⟨rfl, rfl⟩
  | _ => rfl

theorem pop_frame (s : State) (k : Fin 17) : OnlyChanges [.depth] s { s with sp := k } := by
  intro p hp
  cases p with
  | depth => exact absurd hp (by simp)
  | key | wait => exact ⟨rfl, rfl⟩
  | _ => rfl

theorem push_frame (s : State) (h : s.sp.val < 16) (w : Word) (n : Fin 17) :
    OnlyChanges [.depth, .slot (Fin.ofNat 16 s.sp.val)] s { s with stack := s.stack.set s.sp.val w, sp := n } := by
  intro p hp
  cases p with
  | depth => exact absurd hp (by simp)
  | slot j =>
    have hj : s.sp.val ≠ j.val := fun e => hp (by simp [e])
    exact Vector.getElem_set_ne h j.isLt hj
  | key | wait => exact ⟨rfl, rfl⟩
  | _ => rfl

theorem loadBlock_frame (s : State) {n : Nat} (hn : n ≤ 16) : OnlyChanges (regsBelow n) s (s.loadBlock n) := by
  intro p hp
  obtain ⟨v, hv⟩ := loadBlock_eq s n
  cases p with
  | reg r =>
    have hr : ¬ r.toNat < n := fun e => hp ((mem_regsBelow hn).mpr e)
    exact (readReg_loadBlock s hn r).trans (if_neg hr)
  | key | wait => rw [hv]; exact ⟨rfl, rfl⟩
  | _ => rw [hv]; rfl

/-- A write leaves the read of every other address, whatever form the memory has. -/
theorem read_write_of_ne (m : Memory) {a k : Nat} (v : Byte) (hk : k ≠ a) : (m.write a v).read k = m.read k := by
  induction m with
  | nil =>
    by_cases hv : v = 0#8 <;> simp [Memory.write, Memory.read, hv, hk.symm]
  | cons c rest ih =>
    obtain ⟨b, u⟩ := c
    unfold Memory.write
    split_ifs with hlt hv heq hv
    · rfl
    · rw [Memory.read, if_neg hk.symm]
    · rw [Memory.read, if_neg (heq ▸ hk.symm)]
    · rw [Memory.read, Memory.read, if_neg hk.symm, if_neg (heq ▸ hk.symm)]
    · rw [Memory.read, Memory.read, ih]

theorem read_writeBytes_of_not_mem (m : Memory) {a k : Nat} {bs : List Byte} (hk : ¬ (a ≤ k ∧ k < a + bs.length)) :
    (m.writeBytes a bs).read k = m.read k := by
  induction bs generalizing m a with
  | nil => rfl
  | cons b bs ih =>
    rw [List.length_cons] at hk
    rw [Memory.writeBytes, ih _ (by omega), read_write_of_ne m b (by omega)]

/-- The frame of a store, as `storeBytes_frame`, in any state. -/
theorem storeBytes_frame_any (s : State) (a : Nat) (bs : List Byte) :
    OnlyChanges (bytesFrom a bs.length) s (s.storeBytes a bs) := by
  intro p hp
  cases p with
  | byte b => exact read_writeBytes_of_not_mem s.mem fun e => hp (mem_bytesFrom.mpr e)
  | key | wait => exact ⟨rfl, rfl⟩
  | _ => rfl

/-- The frame of the two writes of a flag-writing instruction, then `next` (R100). -/
theorem flagThenResult_frame (s : State) (flag : Bool) (x : Reg) (result : State → Byte) :
    OnlyChanges [.pc, .reg x, .reg vF] s (s.flagThenResult flag x result) := by
  refine onlyChanges_advance (onlyChanges_mono (onlyChanges_append (writeReg_frame s vF _) (writeReg_frame _ x _)) ?_)
  simp

theorem writeReg_advance_frame (s : State) (x : Reg) (b : Byte) : OnlyChanges [.pc, .reg x] s (s.writeReg x b).advance :=
  onlyChanges_advance (writeReg_frame s x b)

theorem setIndex_advance_frame (s : State) (w : Word) : OnlyChanges [.pc, .index] s (s.setIndex w).advance :=
  onlyChanges_advance (setIndex_frame s w)

/-! ### The instructions that answer a state in some states only -/

theorem withRange_eq_next {base : Word} {len : Nat} {t u : State} :
    withRange base len (.next u) = .next t ↔ (len = 0 ∨ base.toNat + len ≤ memSize) ∧ u = t := by
  rcases withRange_cases base len (.next u) with ⟨h, e⟩ | ⟨h0, h, e⟩
  · simp [e, h]
  · simp only [e, reduceCtorEq, false_iff, not_and]
    omega

section
variable {s t : State}

theorem exec_call_of_lt (nnn : Addr12) (h : s.sp.val < 16) : exec (.call nnn) s = .next
    (State.setPc { s with stack := s.stack.set s.sp.val (s.pc + 2#16), sp := ⟨s.sp.val + 1, by omega⟩ } (zext16 nnn)) := by
  simp [exec, execCall, push?_eq_some h]

theorem exec_call_of_full (nnn : Addr12) (h : s.sp.val = 16) : exec (.call nnn) s = .fault .stackOverflow := by
  simp [exec, execCall, push?_eq_none h, raiseFault]

theorem exec_call_eq_next {nnn : Addr12} : exec (.call nnn) s = .next t ↔ ∃ h : s.sp.val < 16,
    State.setPc { s with stack := s.stack.set s.sp.val (s.pc + 2#16), sp := ⟨s.sp.val + 1, by omega⟩ } (zext16 nnn) = t := by
  by_cases h : s.sp.val < 16
  · simp [exec_call_of_lt nnn h, h]
  · simp [exec_call_of_full nnn (by omega : s.sp.val = 16), h]

theorem exec_ret_of_pos (ign : Nibble) (h : 0 < s.sp.val) : exec (.ret ign) s = .next
    (State.setPc { s with sp := ⟨s.sp.val - 1, by omega⟩ } (s.stack[s.sp.val - 1]'(by omega))) := by
  simp [exec, execRet, pop?_eq_some h]

theorem exec_ret_of_empty (ign : Nibble) (h : s.sp.val = 0) : exec (.ret ign) s = .fault .stackUnderflow := by
  simp [exec, execRet, pop?_eq_none h, raiseFault]

theorem exec_ret_eq_next {ign : Nibble} : exec (.ret ign) s = .next t ↔ ∃ h : 0 < s.sp.val,
    State.setPc { s with sp := ⟨s.sp.val - 1, by omega⟩ } (s.stack[s.sp.val - 1]'(by omega)) = t := by
  by_cases h : 0 < s.sp.val
  · simp [exec_ret_of_pos ign h, h]
  · simp [exec_ret_of_empty ign (by omega : s.sp.val = 0), h]

theorem exec_drw_eq_next {x y : Reg} {n : Nibble} : exec (.drw x y n) s = .next t ↔
    (n.toNat = 0 ∨ s.i.toNat + n.toNat ≤ memSize) ∧
      ((({ s with fb := (drawRows s (s.readReg x).toNat (s.readReg y).toNat n.toNat).fb } : State).writeFlag
        (drawRows s (s.readReg x).toNat (s.readReg y).toNat n.toNat).collided).advance) = t :=
  withRange_eq_next

theorem exec_ldB_eq_next {x : Reg} : exec (.ldB x) s = .next t ↔
    s.i.toNat + 3 ≤ memSize ∧ (s.storeBytes (s.indexAddr 0) (decimalDigits (s.readReg x))).advance = t := by
  refine withRange_eq_next.trans ?_
  simp

theorem exec_stRegs_eq_next {x : Reg} : exec (.stRegs x) s = .next t ↔
    s.i.toNat + (x.toNat + 1) ≤ memSize ∧ (s.storeBytes (s.indexAddr 0) (s.regBlock x)).advance = t := by
  refine withRange_eq_next.trans ?_
  simp [blockLength]

theorem exec_ldRegs_eq_next {x : Reg} : exec (.ldRegs x) s = .next t ↔
    s.i.toNat + (x.toNat + 1) ≤ memSize ∧ (s.loadBlock (x.toNat + 1)).advance = t := by
  refine withRange_eq_next.trans ?_
  simp [blockLength]

end

/-! ### The table -/

/-- The parts that an instruction may change in a state (R22, R12). -/
def changedParts : Instr → State → List StatePart
  | .cls _, _ => .pc :: allPixels
  | .ret _, _ => [.pc, .depth]
  | .call _, s => [.pc, .depth, .slot (Fin.ofNat 16 s.sp.val)]
  | .jp _, _ | .jpV0 _, _ | .seImm _ _, _ | .sneImm _ _, _ | .seReg _ _ _, _ | .sneReg _ _ _, _ | .skp _, _ | .sknp _, _ => [.pc]
  | .ldImm x _, _ | .addImm x _, _ | .ldReg x _, _ | .orReg x _, _ | .andReg x _, _ | .xorReg x _, _ | .ldVxDt x, _ =>
    [.pc, .reg x]
  | .addReg x _, _ | .subReg x _, _ | .shr x _, _ | .subnReg x _, _ | .shl x _, _ => [.pc, .reg x, .reg vF]
  | .ldI _, _ | .addI _, _ | .ldF _, _ => [.pc, .index]
  | .rnd x _, _ => [.pc, .reg x, .draws]
  | .drw _ _ _, _ => .pc :: .reg vF :: allPixels
  | .ldVxK _, _ => [.wait, .waitReg]
  | .ldDtVx _, _ => [.pc, .delay]
  | .ldStVx _, _ => [.pc, .sound]
  | .ldB _, s => .pc :: bytesFrom (s.indexAddr 0) 3
  | .stRegs x, s => .pc :: bytesFrom (s.indexAddr 0) (x.toNat + 1)
  | .ldRegs x, _ => .pc :: regsBelow (x.toNat + 1)

/-- An instruction changes the parts of its row of the table and nothing else. -/
theorem exec_frame {i : Instr} {s t : State} (h : exec i s = .next t) : OnlyChanges (changedParts i s) s t := by
  cases i with
  | cls => cases h; exact onlyChanges_advance (setFramebuffer_frame s _)
  | ret =>
    obtain ⟨_, rfl⟩ := exec_ret_eq_next.mp h
    exact onlyChanges_setPc (pop_frame s _) _
  | call =>
    obtain ⟨hsp, rfl⟩ := exec_call_eq_next.mp h
    exact onlyChanges_setPc (push_frame s hsp _ _) _
  | jp | jpV0 => cases h; exact setPc_frame s _
  | seImm | sneImm | seReg | sneReg | skp | sknp => cases h; exact skipIf_frame s _
  | ldImm | addImm | ldReg | orReg | andReg | xorReg | ldVxDt => cases h; exact writeReg_advance_frame s _ _
  | addReg | subReg | shr | subnReg | shl => cases h; exact flagThenResult_frame s _ _ _
  | ldI | addI | ldF => cases h; exact setIndex_advance_frame s _
  | rnd =>
    cases h
    refine onlyChanges_advance (onlyChanges_mono (onlyChanges_append (setDraws_frame s _) (writeReg_frame _ _ _)) ?_)
    simp
  | drw =>
    obtain ⟨_, rfl⟩ := exec_drw_eq_next.mp h
    refine onlyChanges_advance (onlyChanges_mono (onlyChanges_append (setFramebuffer_frame s _) (writeReg_frame _ vF _)) ?_)
    simp
  | ldVxK => cases h; exact setWait_frame s _ _ _
  | ldDtVx => cases h; exact onlyChanges_advance (setDelay_frame s _)
  | ldStVx => cases h; exact onlyChanges_advance (setSound_frame s _)
  | ldB x =>
    obtain ⟨_, rfl⟩ := exec_ldB_eq_next.mp h
    rw [changedParts, ← decimalDigits_length (s.readReg x)]
    exact onlyChanges_advance (storeBytes_frame_any s _ _)
  | stRegs x =>
    obtain ⟨_, rfl⟩ := exec_stRegs_eq_next.mp h
    rw [changedParts, ← regBlock_length s x]
    exact onlyChanges_advance (storeBytes_frame_any s _ _)
  | ldRegs x =>
    obtain ⟨_, rfl⟩ := exec_ldRegs_eq_next.mp h
    exact onlyChanges_advance (loadBlock_frame s (by omega))

section
variable {i : Instr} {s t : State}

/-! ### The table, read by part -/

theorem reg_mem_changedParts {r : Reg} (h : .reg r ∈ changedParts i s) : ∃ x y n nn,
    i = .ldImm r nn ∨ i = .addImm r nn ∨ i = .ldReg r y ∨ i = .orReg r y ∨ i = .andReg r y ∨ i = .xorReg r y ∨
    i = .rnd r nn ∨ i = .ldVxDt r ∨ (r.toNat ≤ x.toNat ∧ i = .ldRegs x) ∨
    ((r = x ∨ r = vF) ∧ (i = .addReg x y ∨ i = .subReg x y ∨ i = .shr x y ∨ i = .subnReg x y ∨ i = .shl x y)) ∨
    (r = vF ∧ i = .drw x y n) := by
  cases i with
  | ldImm x nn | addImm x nn | rnd x nn =>
    obtain rfl : r = x := by simpa [changedParts] using h
    exact ⟨r, r, 0#4, nn, by simp⟩
  | ldReg x y | orReg x y | andReg x y | xorReg x y =>
    obtain rfl : r = x := by simpa [changedParts] using h
    exact ⟨r, y, 0#4, 0#8, by simp⟩
  | ldVxDt x =>
    obtain rfl : r = x := by simpa [changedParts] using h
    exact ⟨r, r, 0#4, 0#8, by simp⟩
  | addReg x y | subReg x y | shr x y | subnReg x y | shl x y =>
    have hr : r = x ∨ r = vF := by simpa [changedParts] using h
    exact ⟨x, y, 0#4, 0#8, by simp [hr]⟩
  | drw x y n =>
    obtain rfl : r = vF := by simpa [changedParts, allPixels] using h
    exact ⟨x, y, n, 0#8, by simp⟩
  | ldRegs x =>
    have hr : r.toNat < x.toNat + 1 := by
      rw [changedParts, List.mem_cons, mem_regsBelow (by omega)] at h
      simpa using h
    exact ⟨x, x, 0#4, 0#8, by simp [Nat.lt_succ_iff.mp hr]⟩
  | _ => simp [changedParts, allPixels, bytesFrom] at h

theorem index_mem_changedParts (h : .index ∈ changedParts i s) : ∃ nnn x, i = .ldI nnn ∨ i = .addI x ∨ i = .ldF x := by
  cases i with
  | ldI nnn => exact ⟨nnn, 0#4, .inl rfl⟩
  | addI x => exact ⟨0#12, x, .inr (.inl rfl)⟩
  | ldF x => exact ⟨0#12, x, .inr (.inr rfl)⟩
  | _ => simp [changedParts, allPixels, bytesFrom, regsBelow] at h

theorem delay_mem_changedParts (h : .delay ∈ changedParts i s) : ∃ x, i = .ldDtVx x := by
  cases i with
  | ldDtVx x => exact ⟨x, rfl⟩
  | _ => simp [changedParts, allPixels, bytesFrom, regsBelow] at h

theorem sound_mem_changedParts (h : .sound ∈ changedParts i s) : ∃ x, i = .ldStVx x := by
  cases i with
  | ldStVx x => exact ⟨x, rfl⟩
  | _ => simp [changedParts, allPixels, bytesFrom, regsBelow] at h

theorem depth_mem_changedParts (h : .depth ∈ changedParts i s) : ∃ nnn ign, i = .call nnn ∨ i = .ret ign := by
  cases i with
  | call nnn => exact ⟨nnn, 0#4, .inl rfl⟩
  | ret ign => exact ⟨0#12, ign, .inr rfl⟩
  | _ => simp [changedParts, allPixels, bytesFrom, regsBelow] at h

theorem slot_mem_changedParts {k : Fin 16} (h : .slot k ∈ changedParts i s) : ∃ nnn, i = .call nnn := by
  cases i with
  | call nnn => exact ⟨nnn, rfl⟩
  | _ => simp [changedParts, allPixels, bytesFrom, regsBelow] at h

theorem pixel_mem_changedParts {p : Fin 2048} (h : .pixel p ∈ changedParts i s) :
    ∃ x y n ign, i = .drw x y n ∨ i = .cls ign := by
  cases i with
  | drw x y n => exact ⟨x, y, n, 0#4, .inl rfl⟩
  | cls ign => exact ⟨0#4, 0#4, 0#4, ign, .inr rfl⟩
  | _ => simp [changedParts, bytesFrom, regsBelow] at h

theorem wait_mem_changedParts (h : .wait ∈ changedParts i s ∨ .waitReg ∈ changedParts i s) : ∃ x, i = .ldVxK x := by
  cases i with
  | ldVxK x => exact ⟨x, rfl⟩
  | _ => simp [changedParts, allPixels, bytesFrom, regsBelow] at h

theorem draws_mem_changedParts (h : .draws ∈ changedParts i s) : ∃ x nn, i = .rnd x nn := by
  cases i with
  | rnd x nn => exact ⟨x, nn, rfl⟩
  | _ => simp [changedParts, allPixels, bytesFrom, regsBelow] at h

theorem key_notMem_changedParts (i : Instr) (s : State) : .key ∉ changedParts i s := by
  cases i <;> simp [changedParts, allPixels, bytesFrom, regsBelow]

theorem config_notMem_changedParts (i : Instr) (s : State) : .config ∉ changedParts i s := by
  cases i <;> simp [changedParts, allPixels, bytesFrom, regsBelow]

theorem hostOps_notMem_changedParts (i : Instr) (s : State) : .hostOps ∉ changedParts i s := by
  cases i <;> simp [changedParts, allPixels, bytesFrom, regsBelow]

/-! ### Memory and `PC` after an instruction -/

/-- Memory is written by `LD B` and `LD [I]` alone, and only inside the address space. -/
theorem exec_mem (h : exec i s = .next t) : t.mem = s.mem ∨
    ((∃ x, i = .ldB x ∨ i = .stRegs x) ∧
      ∃ bs, s.i.toNat + bs.length ≤ memSize ∧ t.mem = s.mem.writeBytes s.i.toNat bs) := by
  cases i with
  | ret => obtain ⟨_, rfl⟩ := exec_ret_eq_next.mp h; exact .inl rfl
  | call => obtain ⟨_, rfl⟩ := exec_call_eq_next.mp h; exact .inl rfl
  | drw => obtain ⟨_, rfl⟩ := exec_drw_eq_next.mp h; exact .inl rfl
  | ldB x =>
    obtain ⟨hr, rfl⟩ := exec_ldB_eq_next.mp h
    exact .inr ⟨⟨x, .inl rfl⟩, decimalDigits (s.readReg x), hr, rfl⟩
  | stRegs x =>
    obtain ⟨hr, rfl⟩ := exec_stRegs_eq_next.mp h
    exact .inr ⟨⟨x, .inr rfl⟩, s.regBlock x, by rwa [regBlock_length], rfl⟩
  | ldRegs x =>
    obtain ⟨_, rfl⟩ := exec_ldRegs_eq_next.mp h
    obtain ⟨v, hv⟩ := loadBlock_eq s (x.toNat + 1)
    exact .inl (by rw [advance_mem, hv])
  | skp | sknp | seImm | sneImm | seReg | sneReg => cases h; exact .inl (skipIf_mem s _)
  | _ => cases h; exact .inl rfl

/-- Where `PC` goes: it stays for `LD Vx, K`, jumps, calls and returns set it, and every other instruction adds 2 or 4. -/
theorem exec_pc (h : exec i s = .next t) :
    ((∃ x, i = .ldVxK x) ∧ t.pc = s.pc) ∨ (∃ nnn, i = .jp nnn ∨ i = .call nnn ∨ i = .jpV0 nnn) ∨ (∃ ign, i = .ret ign) ∨
    ((∀ x, i ≠ .ldVxK x) ∧ (t.pc = s.pc + 2#16 ∨ t.pc = s.pc + 4#16)) := by
  cases i with
  | ldVxK x => cases h; exact .inl ⟨⟨x, rfl⟩, rfl⟩
  | jp nnn => exact .inr (.inl ⟨nnn, .inl rfl⟩)
  | call nnn => exact .inr (.inl ⟨nnn, .inr (.inl rfl)⟩)
  | jpV0 nnn => exact .inr (.inl ⟨nnn, .inr (.inr rfl)⟩)
  | ret ign => exact .inr (.inr (.inl ⟨ign, rfl⟩))
  | skp | sknp | seImm | sneImm | seReg | sneReg =>
    cases h
    refine .inr (.inr (.inr ⟨fun _ => nofun, ?_⟩))
    rw [skipIf_pc]
    split_ifs
    · exact .inr rfl
    · exact .inl rfl
  | drw | ldB | stRegs =>
    obtain ⟨_, rfl⟩ := withRange_eq_next.mp h
    exact .inr (.inr (.inr ⟨fun _ => nofun, .inl rfl⟩))
  | ldRegs x =>
    obtain ⟨_, rfl⟩ := exec_ldRegs_eq_next.mp h
    obtain ⟨v, hv⟩ := loadBlock_eq s (x.toNat + 1)
    exact .inr (.inr (.inr ⟨fun _ => nofun, .inl (by rw [advance_pc, hv])⟩))
  | _ =>
    cases h
    exact .inr (.inr (.inr ⟨fun _ => nofun, .inl rfl⟩))

end

end Sys2Proof.Machine
end

section
/-! PROOFS. When an instruction and a `STEP` fault, and in which order the checks come (60_exceptions.md R160 to R169): O8 to O13. -/

namespace Sys2Proof.Machine

/-! ### The faults of one instruction (R161) -/

theorem withRange_eq_fault {base : Word} {len : Nat} {t : State} {f : Fault} :
    withRange base len (.next t) = .fault f ↔
      0 < len ∧ 4095 < base.toNat + len - 1 ∧ f = .outOfRangeAccess (if 4096 ≤ base.toNat then base else 4096#16) := by
  rcases withRange_cases base len (.next t) with ⟨h, e⟩ | ⟨h0, h, e⟩
  · simp only [e, memSize, reduceCtorEq, false_iff, not_and] at h ⊢
    omega
  · simp only [e, memSize, Host.Outcome.fault.injEq, eq_comm (b := f)] at h ⊢
    exact ⟨fun hf => ⟨by omega, by omega, hf⟩, fun hf => hf.2.2⟩

theorem withRange_ne_refused {base : Word} {len : Nat} {t : State} {r : Refusal} :
    withRange base len (.next t) ≠ .refused r := by
  rcases withRange_cases base len (.next t) with ⟨-, e⟩ | ⟨-, -, e⟩ <;> simp [e]

/-- Exactly when an instruction faults, and with which fault (R161, R163, R164). -/
theorem exec_eq_fault_iff {i : Instr} {s : State} {f : Fault} : exec i s = .fault f ↔
    ((∃ nnn, i = .call nnn) ∧ s.sp.val = 16 ∧ f = .stackOverflow) ∨
    ((∃ ign, i = .ret ign) ∧ s.sp.val = 0 ∧ f = .stackUnderflow) ∨
    (0 < accessLength i ∧ 4095 < s.i.toNat + accessLength i - 1 ∧
      f = .outOfRangeAccess (if 4096 ≤ s.i.toNat then s.i else 4096#16)) := by
  cases i with
  | call nnn =>
    by_cases h : s.sp.val < 16
    · simp [exec_call_of_lt nnn h, h.ne, accessLength]
    · have hfull : s.sp.val = 16 := by omega
      simp [exec_call_of_full nnn hfull, hfull, accessLength, eq_comm]
  | ret ign =>
    by_cases h : 0 < s.sp.val
    · simp [exec_ret_of_pos ign h, h.ne', accessLength]
    · have hempty : s.sp.val = 0 := by omega
      simp [exec_ret_of_empty ign hempty, hempty, accessLength, eq_comm]
  | drw | ldB | stRegs | ldRegs =>
    refine withRange_eq_fault.trans ?_
    simp [accessLength, blockLength]
  | _ =>
    refine iff_of_false nofun ?_
    simp only [reduceCtorEq, exists_false, false_and, accessLength, lt_self_iff_false, or_self, not_false_eq_true]

/-- The model gives every instruction a meaning. -/
theorem exec_ne_refused (i : Instr) (s : State) (r : Refusal) : exec i s ≠ .refused r := by
  cases i with
  | call nnn =>
    by_cases h : s.sp.val < 16
    · simp [exec_call_of_lt nnn h]
    · simp [exec_call_of_full nnn (by omega : s.sp.val = 16)]
  | ret ign =>
    by_cases h : 0 < s.sp.val
    · simp [exec_ret_of_pos ign h]
    · simp [exec_ret_of_empty ign (by omega : s.sp.val = 0)]
  | drw | ldB | stRegs | ldRegs => exact withRange_ne_refused
  | _ => nofun

/-! ### The faults of a `STEP` -/

/-- Exactly when a `STEP` faults, and with which fault (R161). -/
theorem stepInstr_eq_fault_iff (s : State) (f : Fault) : stepInstr s = .fault f ↔
    s.isHalted = false ∧
    ((4094 < s.pc.toNat ∧ f = .outOfRangeAccess (if 4096 ≤ s.pc.toNat then s.pc else 4096#16)) ∨
     ∃ w, s.fetchWord = .ok w ∧
      (((∀ i, decodeWord w ≠ .ok i) ∧ f = .unrecognizedInstruction w) ∨
       ∃ i, decodeWord w = .ok i ∧
        (((∃ nnn, i = .call nnn) ∧ s.sp.val = 16 ∧ f = .stackOverflow) ∨
         ((∃ ign, i = .ret ign) ∧ s.sp.val = 0 ∧ f = .stackUnderflow) ∨
         (0 < accessLength i ∧ 4095 < s.i.toNat + accessLength i - 1 ∧
          f = .outOfRangeAccess (if 4096 ≤ s.i.toNat then s.i else 4096#16))))) := by
  rw [← fetchWord_eq_error]
  simp only [← exec_eq_fault_iff]
  rcases stepInstr_cases s with ⟨hh, e⟩ | ⟨hh, g, hf, e⟩ | ⟨hh, w, d, hf, hd, e⟩ | ⟨hh, w, i, hf, hd, e⟩
  · simp [hh, e]
  · simp [hh, hf, e]
  · simp [hh, hf, hd, e, eq_comm]
  · simp [hh, hf, hd, e]

theorem stepInstr_ne_refused (s : State) (r : Refusal) : stepInstr s ≠ .refused r := by
  rcases stepInstr_cases s with ⟨-, e⟩ | ⟨-, f, -, e⟩ | ⟨-, w, -, -, -, e⟩ | ⟨-, -, i, -, -, e⟩ <;> rw [e]
  · nofun
  · nofun
  · nofun
  · exact exec_ne_refused i s r

theorem stepInstr_fetch_error {s : State} {f : Fault} (h : s.isHalted = false) (hf : s.fetchWord = .error f) :
    stepInstr s = .fault f :=
  (stepInstr_eq_fault_iff s f).mpr ⟨h, .inl (fetchWord_eq_error.mp hf)⟩

/-- Settles O11: the codes by definition, the `STEP` by the checks in their order. -/
theorem faultsAreRaisedExactlyAsListed : Obligations.FaultsAreRaisedExactlyAsListed := by
  unfold Obligations.FaultsAreRaisedExactlyAsListed
  exact ⟨fun _ => ⟨rfl, rfl, rfl, rfl⟩, rfl, rfl, rfl, rfl, stepInstr_eq_fault_iff⟩

/-! ### A fault changes nothing and repeats (R165, R169) -/

theorem stateAfter_stepInstr_of_fault {s : State} {f : Fault} (h : stepInstr s = .fault f) :
    stateAfter s (stepInstr s) = s := by
  rw [h, stateAfter]

/-- The condition of every fault is the same however many random bytes have been drawn. -/
theorem stepInstr_fault_of_draws {s : State} {f : Fault} (h : stepInstr s = .fault f) (n : Nat) :
    stepInstr { s with rndDraws := n } = .fault f :=
  (stepInstr_eq_fault_iff { s with rndDraws := n } f).mpr ((stepInstr_eq_fault_iff s f).mp h)

theorem transactAll_steps_of_fixed {s : State} (h : stateAfter s (stepInstr s) = s) (n : Nat) :
    transactAll (List.replicate n .step) s = s := by
  induction n with
  | zero => rfl
  | succ n ih => rw [List.replicate_succ, transactAll, transact, h, ih]

/-- Settles O13: the state after the fault is the state before it, so the `STEP`s after it meet the same condition. -/
theorem faultingStepFaultsAgain : Obligations.FaultingStepFaultsAgain := by
  unfold Obligations.FaultingStepFaultsAgain
  exact fun s f h => ⟨stateAfter_stepInstr_of_fault h, stepInstr_fault_of_draws h,
    transactAll_steps_of_fixed (stateAfter_stepInstr_of_fault h)⟩

/-! ### The result of a `STEP` (R160) -/

theorem stepResult_halted {s : State} (h : s.isHalted = true) : stepResult s = .halted := by
  rw [stepResult, if_pos h]

theorem stepResult_executed {s t : State} (h : s.isHalted = false) (hs : stepInstr s = .next t) : stepResult s = .executed := by
  simp [stepResult, h, hs]

theorem stepResult_fault {s : State} {f : Fault} (h : s.isHalted = false) (hs : stepInstr s = .fault f) :
    stepResult s = .fault f := by
  simp [stepResult, h, hs]

/-- The three ways a `STEP` ends. -/
theorem stepResult_cases (s : State) :
    (s.isHalted = true ∧ stepInstr s = .next s ∧ stepResult s = .halted) ∨
    (s.isHalted = false ∧ ∃ t, stepInstr s = .next t ∧ stepResult s = .executed) ∨
    (s.isHalted = false ∧ ∃ f, stepInstr s = .fault f ∧ stepResult s = .fault f) := by
  cases hh : s.isHalted with
  | true => exact .inl ⟨rfl, stepInstr_halted hh, stepResult_halted hh⟩
  | false =>
    cases hs : stepInstr s with
    | next t => exact .inr (.inl ⟨rfl, t, rfl, stepResult_executed hh hs⟩)
    | fault f => exact .inr (.inr ⟨rfl, f, rfl, stepResult_fault hh hs⟩)
    | refused r => exact absurd hs (stepInstr_ne_refused s r)

theorem resetWith_of_le {font program : List Byte} (s : State) (hf : font.length ≤ 512) (hp : program.length ≤ 3584) :
    s.resetWith font program = .next { State.reset with
      mem := resetMemory font program, rndDraws := s.rndDraws, config := s.config, hostOps := s.hostOps } := by
  rw [State.resetWith, if_neg (by simpa [maxFontImage] using hf), if_neg (by simpa [maxProgramImage] using hp)]

theorem resetWith_of_gt {font program : List Byte} (s : State) (h : 512 < font.length ∨ 3584 < program.length) :
    ∃ r, s.resetWith font program = .refused r := by
  unfold State.resetWith
  by_cases hf : maxFontImage < font.length
  · exact ⟨_, if_pos hf⟩
  · exact ⟨_, (if_neg hf).trans (if_pos (h.resolve_left hf))⟩

theorem resetWith_ne_fault (s : State) (font program : List Byte) (f : Fault) : s.resetWith font program ≠ .fault f := by
  unfold State.resetWith
  split_ifs <;> nofun

/-- Settles O10: three results, told apart by the wait and by the outcome; the other operations answer or refuse. -/
theorem stepEndsWithOneOfThreeResults : Obligations.StepEndsWithOneOfThreeResults := by
  unfold Obligations.StepEndsWithOneOfThreeResults
  refine ⟨fun s => ?_, fun op s f hop => ?_⟩
  · rcases stepResult_cases s with ⟨hh, hs, hr⟩ | ⟨hh, t, hs, hr⟩ | ⟨hh, f, hs, hr⟩
    · simp [hh, hs, hr]
    · simp [hh, hs, hr]
    · simp [hh, hs, hr]
  · cases op with
    | step => exact absurd rfl hop
    | reset font program => exact resetWith_ne_fault s font program f
    | _ => nofun

/-! ### The order of the checks (R41, R70, R166) -/

/-- The fetched word as a number, high byte first (R41). -/
theorem fetchWord_of_le {s : State} (h : s.pc.toNat ≤ 4094) : ∃ w, s.fetchWord = .ok w ∧
    w.toNat = (s.readByte s.pc.toNat).toNat * 256 + (s.readByte (s.pc.toNat + 1)).toNat :=
  ⟨_, fetchWord_eq_ok.mpr ⟨h, rfl⟩, toNat_append_eq _ _⟩

theorem stepInstr_of_pc_gt {s : State} (h : s.isHalted = false) (hpc : 4094 < s.pc.toNat) :
    stepInstr s = .fault (.outOfRangeAccess (if 4096 ≤ s.pc.toNat then s.pc else 4096#16)) :=
  stepInstr_fetch_error h (fetchWord_eq_error.mpr ⟨hpc, rfl⟩)

/-- Settles O9: the two bytes at `PC`, and the two ways the range check fails. -/
theorem fetchIsHighByteFirst : Obligations.FetchIsHighByteFirst := by
  unfold Obligations.FetchIsHighByteFirst
  refine fun s => ⟨fetchWord_of_le, fun h hpc => ?_, fun h hpc => ?_⟩
  · rw [stepInstr_of_pc_gt h (by omega), if_neg (by omega)]
  · rw [stepInstr_of_pc_gt h (by omega), if_pos hpc]

/-- Settles O12: halt check, fetch range, decode, instruction. -/
theorem checksAreMadeInOrder : Obligations.ChecksAreMadeInOrder := by
  unfold Obligations.ChecksAreMadeInOrder
  exact fun s => ⟨fun h => ⟨stepInstr_halted h, stepResult_halted h⟩, fun h hpc => ⟨_, stepInstr_of_pc_gt h hpc⟩,
    fun w h hf => ⟨stepInstr_not_decoded h hf, fun i hd => stepInstr_decoded h hf hd⟩⟩

theorem stepInstr_of_bytes {s : State} {i : Instr} (h : s.isHalted = false) (hpc : s.pc.toNat ≤ 4094)
    (hd : decodeBytes [s.readByte s.pc.toNat, s.readByte (s.pc.toNat + 1)] = .ok (i, [])) : stepInstr s = exec i s := by
  refine stepInstr_decoded h (fetchWord_eq_ok.mpr ⟨hpc, rfl⟩) ?_
  change decodeWord (wordOfBytes _ _) = _
  unfold decodeBytes at hd
  cases hw : decodeWord (wordOfBytes (s.readByte s.pc.toNat) (s.readByte (s.pc.toNat + 1))) with
  | error e => simp [hw] at hd
  | ok j => simp_all

/-- Settles O8: a step with an empty list, and one whose list begins with `STEP`, is `stepInstr`. -/
theorem stepRunsDecodedInstruction : Obligations.StepRunsDecodedInstruction := by
  unfold Obligations.StepRunsDecodedInstruction
  refine fun s i h hpc hd => ⟨fun hops => ?_, fun rest hops => ?_⟩
  · rw [step, hops]
    exact stepInstr_of_bytes h hpc hd
  · rw [step, hops]
    exact stepInstr_of_bytes (s := { s with hostOps := rest }) h hpc hd

end Sys2Proof.Machine
end

section
/-! PROOFS. The operations of the host (00_scope.md R5) and the invariant (10_state.md R20): RESET, the ticks, the key wait, then that
every step keeps the invariant: O15 to O17, O22 to O24. -/

namespace Sys2Proof.Machine

/-! ### RESET (R180, R181) -/

section
variable {font program : List Byte}

theorem writeBytes_font_wf (hf : font.length ≤ 512) : (Memory.writeBytes [] 0 font).wf = true :=
  writeBytes_wf rfl (by simp only [memSize]; omega)

theorem resetMemory_wf (hf : font.length ≤ 512) (hp : program.length ≤ 3584) : (resetMemory font program).wf = true :=
  writeBytes_wf (writeBytes_font_wf hf) (by simp only [memSize, programBase, BitVec.toNat_ofNat]; omega)

/-- Below 0x200 the font image, at and above it the program image, and 0 where an image has ended. -/
theorem read_resetMemory (hf : font.length ≤ 512) (hp : program.length ≤ 3584) (a : Nat) :
    (resetMemory font program).read a = if a < 0x200 then font[a]?.getD 0#8 else program[a - 0x200]?.getD 0#8 := by
  have hbase : programBase.toNat = 0x200 := rfl
  rw [resetMemory, hbase, read_writeBytes (writeBytes_font_wf hf) (by simp only [memSize]; omega),
    read_writeBytes rfl (by simp only [memSize]; omega)]
  by_cases ha : a < 0x200
  · rw [if_pos ha, if_neg (by omega)]
    split_ifs with h
    · rfl
    · rw [List.getElem?_eq_none (by omega)]
      rfl
  · rw [if_neg ha]
    split_ifs with h h'
    · rfl
    · omega
    · rw [List.getElem?_eq_none (by omega)]
      rfl

end

/-- Settles O15: no entry in memory, neither bit of the wait, no key. -/
theorem resetStateMeetsInvariant : Obligations.ResetStateMeetsInvariant := by
  unfold Obligations.ResetStateMeetsInvariant
  exact ⟨rfl, rfl, fun _ => rfl⟩

/-- With no program image the first word is 0x0000, which is no instruction (R181). -/
theorem stepInstr_of_zero_word {s : State} (h : s.isHalted = false) (hpc : s.pc.toNat ≤ 4094)
    (hhi : s.readByte s.pc.toNat = 0#8) (hlo : s.readByte (s.pc.toNat + 1) = 0#8) :
    stepInstr s = .fault (.unrecognizedInstruction 0x0000#16) := by
  have hd : decodeWord 0x0000#16 = .error (.unrecognizedInstruction 0x0000#16) := by decide
  refine stepInstr_not_decoded h (fetchWord_eq_ok.mpr ⟨hpc, ?_⟩) fun i => by rw [hd]; nofun
  rw [hhi, hlo]
  rfl

/-- Settles O16: a reset machine but for the memory of the two images and the model's own fields. -/
theorem resetOperationLoadsImages : Obligations.ResetOperationLoadsImages := by
  unfold Obligations.ResetOperationLoadsImages
  refine fun s font program => ⟨fun hf hp => ⟨_, resetWith_of_le s hf hp, ?_, ?_, ?_, ?_, ?_⟩, resetWith_of_gt s⟩
  · exact ⟨resetMemory_wf hf hp, rfl, fun _ => rfl⟩
  · exact read_resetMemory hf hp
  · intro p hbyte hdraws hconfig hhost
    cases p with
    | byte a => exact absurd rfl (hbyte a)
    | draws => exact absurd rfl hdraws
    | config => exact absurd rfl hconfig
    | hostOps => exact absurd rfl hhost
    | key | wait => exact ⟨rfl, rfl⟩
    | _ => rfl
  · rintro p (rfl | rfl | rfl) <;> rfl
  · rintro rfl
    refine stepInstr_of_zero_word rfl (by decide : programBase.toNat ≤ 4094) ?_ ?_
    · exact (read_resetMemory hf hp _).trans rfl
    · exact (read_resetMemory hf hp _).trans rfl

/-! ### The ticks (R154, R155) -/

theorem countdown_toNat (b : Byte) : (countdown b).toNat = b.toNat - 1 := by
  unfold countdown
  split_ifs with h
  · have h1 : 1#8 ≤ b := BitVec.le_def.mpr h
    exact BitVec.toNat_sub_of_le h1
  · omega

/-- Settles O22: one less, and 0 stays 0. -/
theorem ticksCountDownToZero : Obligations.TicksCountDownToZero := by
  unfold Obligations.TicksCountDownToZero
  have ite_eq (n : Nat) : n - 1 = if 0 < n then n - 1 else 0 := by split_ifs <;> omega
  exact fun s => ⟨⟨s.tickDelay, rfl, (countdown_toNat s.dt).trans (ite_eq _), setDelay_frame s _⟩,
    ⟨s.tickSound, rfl, (countdown_toNat s.st).trans (ite_eq _), setSound_frame s _⟩⟩

/-! ### The key wait (R144 to R146) -/

/-- A run of `STEP`s and ticks from a waiting core: it goes on waiting, and each tick counts on its own timer. -/
theorem transactAll_waiting (ops : List HostOp) : ∀ s : State, s.isHalted = true →
    (∀ op ∈ ops, op = .step ∨ op = .tickDelay ∨ op = .tickSound) →
    (transactAll ops s).isHalted = true ∧ OnlyChanges [.delay, .sound] s (transactAll ops s) ∧
    (transactAll ops s).dt.toNat = s.dt.toNat - ops.count .tickDelay ∧
    (transactAll ops s).st.toNat = s.st.toNat - ops.count .tickSound := by
  induction ops with
  | nil => exact fun s h _ => ⟨h, onlyChanges_refl _ s, rfl, rfl⟩
  | cons op ops ih =>
    intro s h hops
    rw [List.forall_mem_cons] at hops
    obtain ⟨rfl | rfl | rfl, hops⟩ := hops
    · rw [transactAll, transact, stepInstr_halted h, stateAfter]
      simpa using ih s h hops
    · obtain ⟨hh, hframe, hdt, hst⟩ := ih s.tickDelay h hops
      refine ⟨hh, onlyChanges_trans (onlyChanges_mono (setDelay_frame s _) (by simp)) hframe, ?_, ?_⟩
      · rw [transactAll, transact, stateAfter, hdt, tickDelay_dt, countdown_toNat, List.count_cons_self]
        omega
      · rw [transactAll, transact, stateAfter, hst, tickDelay_st, List.count_cons_of_ne (by decide)]
    · obtain ⟨hh, hframe, hdt, hst⟩ := ih s.tickSound h hops
      refine ⟨hh, onlyChanges_trans (onlyChanges_mono (setSound_frame s _) (by simp)) hframe, ?_, ?_⟩
      · rw [transactAll, transact, stateAfter, hdt, tickSound_dt, List.count_cons_of_ne (by decide)]
      · rw [transactAll, transact, stateAfter, hst, tickSound_st, countdown_toNat, List.count_cons_self]
        omega

/-- Settles O24, by induction on the operations. -/
theorem onlyKeyOrResetEndsTheWait : Obligations.OnlyKeyOrResetEndsTheWait := by
  unfold Obligations.OnlyKeyOrResetEndsTheWait
  exact fun s ops h hops => transactAll_waiting ops s h hops

/-- Only `LD Vx, K` touches the sub-state. -/
theorem exec_keeps_wait {i : Instr} {s t : State} (hi : ∀ x, i ≠ .ldVxK x) (h : exec i s = .next t) :
    t.isHalted = s.isHalted ∧ t.hasPendingKeyWait = s.hasPendingKeyWait := by
  refine exec_frame h .wait fun hmem => ?_
  obtain ⟨x, hx⟩ := wait_mem_changedParts (.inl hmem)
  exact hi x hx

/-- After a `RESET` the core runs. -/
theorem resetWith_running {s t : State} {font program : List Byte} (h : s.resetWith font program = .next t) :
    t.isHalted = false ∧ t.hasPendingKeyWait = false := by
  unfold State.resetWith at h
  split_ifs at h
  cases h
  exact ⟨rfl, rfl⟩

/-- Settles O23, row by row. -/
theorem keyWaitTransitionTable : Obligations.KeyWaitTransitionTable := by
  unfold Obligations.KeyWaitTransitionTable
  refine fun s hbits => ⟨fun h => ⟨?_, ?_, ?_, ?_⟩, fun h => ⟨stepInstr_halted h, stepResult_halted h, ?_⟩, ?_, ?_⟩
  · exact fun w x hf hd => ⟨_, stepInstr_decoded h hf hd, rfl, rfl, rfl, rfl⟩
  · intro w i t hf hd hi hs
    rw [stepInstr_decoded h hf hd] at hs
    obtain ⟨hhalted, hpending⟩ := exec_keeps_wait hi hs
    exact ⟨hhalted.trans h, hpending.trans (hbits.symm.trans h)⟩
  · exact fun f => stateAfter_stepInstr_of_fault
  · refine fun k => ⟨_, rfl, keyPressed_isHalted s k, ?_, keyPressed_keyValid s k, keyPressed_keyCode s k,
      keyPressed_frame_of_running h k⟩
    rw [keyPressed_of_running h]
    exact hbits.symm.trans h
  · exact fun k => ⟨_, rfl, keyPressed_isHalted s k, keyPressed_hasPendingKeyWait_of_waiting h k, keyPressed_keyValid s k,
      keyPressed_keyCode s k, readReg_pendingKeyWaitRegister_keyPressed h k, keyPressed_pc_of_waiting h k⟩
  · rintro op t (rfl | rfl) ht <;> cases ht <;> exact ⟨rfl, rfl, rfl⟩
  · exact fun font program t => resetWith_running

/-! ### The invariant (R20) -/

section
variable {s t : State}

theorem exec_keeps_mem_wf {i : Instr} (hwf : s.mem.wf = true) (h : exec i s = .next t) : t.mem.wf = true := by
  rcases exec_mem h with e | ⟨-, bs, hlen, e⟩
  · rwa [e]
  · rw [e]
    exact writeBytes_wf hwf hlen

theorem exec_keeps_wait_bits {i : Instr} (hbits : s.isHalted = s.hasPendingKeyWait) (h : exec i s = .next t) :
    t.isHalted = t.hasPendingKeyWait := by
  by_cases hi : ∃ x, i = .ldVxK x
  · obtain ⟨x, rfl⟩ := hi
    cases h
    rfl
  · obtain ⟨hhalted, hpending⟩ := exec_keeps_wait (fun x e => hi ⟨x, e⟩) h
    rw [hhalted, hbits, hpending]

/-- No instruction writes the key (R17). -/
theorem exec_keeps_key {i : Instr} (h : exec i s = .next t) : t.keyValid = s.keyValid ∧ t.keyCode = s.keyCode :=
  exec_frame h .key (key_notMem_changedParts i s)

theorem exec_keeps_inv {i : Instr} (hs : s.Inv) (h : exec i s = .next t) : t.Inv := by
  obtain ⟨hvalid, hcode⟩ := exec_keeps_key h
  exact ⟨exec_keeps_mem_wf hs.mem_wf h, exec_keeps_wait_bits hs.wait_bits h,
    fun hno => hcode.trans (hs.no_key_code (hvalid.symm.trans hno))⟩

theorem stepInstr_keeps_inv (hs : s.Inv) (h : stepInstr s = .next t) : t.Inv := by
  rcases stepInstr_cases s with ⟨-, e⟩ | ⟨-, f, -, e⟩ | ⟨-, w, d, -, -, e⟩ | ⟨-, w, i, -, -, e⟩ <;> rw [e] at h
  · cases h; exact hs
  · cases h
  · cases h
  · exact exec_keeps_inv hs h

theorem keyPressed_inv (hs : s.Inv) (k : Nibble) : (s.keyPressed k).Inv := by
  refine ⟨?_, ?_, fun hno => absurd hno (by simp)⟩
  · cases hh : s.isHalted with
    | false => rw [keyPressed_of_running hh]; exact hs.mem_wf
    | true => rw [keyPressed_of_waiting hh]; exact hs.mem_wf
  · cases hh : s.isHalted with
    | false => rw [keyPressed_of_running hh]; exact hs.wait_bits
    | true => rw [keyPressed_of_waiting hh]; rfl

theorem resetWith_inv {font program : List Byte} (h : s.resetWith font program = .next t) : t.Inv := by
  unfold State.resetWith at h
  split_ifs at h with hf hp
  cases h
  exact ⟨resetMemory_wf (not_lt.mp hf) (not_lt.mp hp), rfl, fun _ => rfl⟩

theorem transact_keeps_inv {op : HostOp} (hs : s.Inv) (h : transact op s = .next t) : t.Inv := by
  cases op with
  | step => exact stepInstr_keeps_inv hs h
  | key k => cases h; exact keyPressed_inv hs k
  | tickDelay | tickSound => cases h; exact ⟨hs.mem_wf, hs.wait_bits, hs.no_key_code⟩
  | reset font program => exact resetWith_inv h

end

/-- Settles O17: a step is a `STEP` or the host's next operation, and each keeps the invariant. -/
theorem everyStepKeepsInvariant : Obligations.EveryStepKeepsInvariant := by
  unfold Obligations.EveryStepKeepsInvariant
  intro s t hs h
  rcases step_cases s with ⟨-, e⟩ | ⟨op, rest, -, e⟩ <;> rw [e] at h
  · exact stepInstr_keeps_inv hs h
  · exact transact_keeps_inv (s := { s with hostOps := rest }) ⟨hs.mem_wf, hs.wait_bits, hs.no_key_code⟩ h

end Sys2Proof.Machine
end

section
/-! PROOFS. Who writes what (10_state.md R22, write column, and R12): what an instruction that changed a part of the state is, then O18
and O20. -/

namespace Sys2Proof.Machine

section
variable {i : Instr} {s t : State}

theorem exec_changes_mem (h : exec i s = .next t) (hne : t.mem ≠ s.mem) : ∃ x, i = .ldB x ∨ i = .stRegs x := by
  rcases exec_mem h with e | ⟨hi, -⟩
  · exact absurd e hne
  · exact hi

theorem exec_changes_stack (h : exec i s = .next t) (hne : t.stack ≠ s.stack) : ∃ nnn, i = .call nnn := by
  by_contra hi
  exact hne (Vector.ext fun k hk => exec_frame h (.slot ⟨k, hk⟩) fun hmem => hi (slot_mem_changedParts hmem))

theorem exec_changes_fb (h : exec i s = .next t) (hne : t.fb ≠ s.fb) : ∃ x y n ign, i = .drw x y n ∨ i = .cls ign := by
  by_contra hi
  exact hne (framebuffer_ext fun p => exec_frame h (.pixel p) fun hmem => hi (pixel_mem_changedParts hmem))

theorem exec_changes_sp (h : exec i s = .next t) (hne : t.sp ≠ s.sp ∨ t.stack ≠ s.stack) :
    ∃ nnn ign, i = .call nnn ∨ i = .ret ign := by
  rcases hne with hne | hne
  · exact depth_mem_changedParts (mem_of_not_same (p := .depth) (exec_frame h) hne)
  · obtain ⟨nnn, hi⟩ := exec_changes_stack h hne
    exact ⟨nnn, 0#4, .inl hi⟩

theorem exec_changes_wait (h : exec i s = .next t) (hne : t.isHalted ≠ s.isHalted ∨
    t.hasPendingKeyWait ≠ s.hasPendingKeyWait ∨ t.pendingKeyWaitRegister ≠ s.pendingKeyWaitRegister) : ∃ x, i = .ldVxK x := by
  refine wait_mem_changedParts (s := s) ?_
  rcases hne with hne | hne | hne
  · exact .inl (mem_of_not_same (exec_frame h) fun e => hne e.1)
  · exact .inl (mem_of_not_same (exec_frame h) fun e => hne e.2)
  · exact .inr (mem_of_not_same (exec_frame h) hne)

/-- `PC` moves by 2 or 4 unless the instruction sets it or enters the wait. -/
theorem exec_keeps_pc (h : exec i s = .next t) (hpc : t.pc = s.pc) :
    (∃ x, i = .ldVxK x) ∨ (∃ nnn, i = .jp nnn ∨ i = .call nnn ∨ i = .jpV0 nnn) ∨ ∃ ign, i = .ret ign := by
  rcases exec_pc h with ⟨hi, -⟩ | hi | hi | ⟨-, e | e⟩
  · exact .inl hi
  · exact .inr (.inl hi)
  · exact .inr (.inr hi)
  · bv_omega
  · bv_omega

end

/-- Settles O18: the `STEP` of a running core that answers a state ran an instruction, and each part by its row above. -/
theorem stepWritesOnlyAsSummarized : Obligations.StepWritesOnlyAsSummarized := by
  unfold Obligations.StepWritesOnlyAsSummarized
  intro s t hs hh
  rcases stepInstr_cases s with ⟨hh', -⟩ | ⟨-, f, -, e⟩ | ⟨-, w, d, -, -, e⟩ | ⟨-, w, i, hf, hd, e⟩
  · rw [hh] at hh'
    cases hh'
  · rw [e] at hs
    cases hs
  · rw [e] at hs
    cases hs
  · rw [e] at hs
    have frame := exec_frame hs
    obtain ⟨hvalid, hcode⟩ := exec_keeps_key hs
    exact ⟨w, i, hf, hd, exec_changes_mem hs,
      fun r hr => reg_mem_changedParts (mem_of_not_same (p := .reg r) frame hr),
      fun hi => index_mem_changedParts (mem_of_not_same (p := .index) frame hi),
      fun hdt => delay_mem_changedParts (mem_of_not_same (p := .delay) frame hdt),
      fun hst => sound_mem_changedParts (mem_of_not_same (p := .sound) frame hst),
      exec_changes_sp hs, exec_changes_stack hs, exec_changes_fb hs, exec_changes_wait hs, exec_keeps_pc hs,
      fun ⟨x, hi⟩ => by subst hi; cases hs; rfl,
      fun hdraws => draws_mem_changedParts (mem_of_not_same (p := .draws) frame hdraws),
      hvalid, hcode, frame .config (config_notMem_changedParts i s), frame .hostOps (hostOps_notMem_changedParts i s)⟩

/-- Settles O20: register 15 is in the row of the six flag writers and of the instructions that name it. -/
theorem onlySixInstructionsWriteFlagAsSideEffect : Obligations.OnlySixInstructionsWriteFlagAsSideEffect := by
  unfold Obligations.OnlySixInstructionsWriteFlagAsSideEffect
  intro i s t h hne
  obtain ⟨x, y, n, nn, hi⟩ := reg_mem_changedParts (mem_of_not_same (p := .reg vF) (exec_frame h) hne)
  rcases hi with hi | hi | hi | hi | hi | hi | hi | hi | ⟨hx, hi⟩ | ⟨-, hi⟩ | ⟨-, hi⟩
  · exact .inr (.inr (.inl ⟨nn, .inl hi⟩))
  · exact .inr (.inr (.inl ⟨nn, .inr (.inl hi)⟩))
  · exact .inr (.inr (.inr (.inl ⟨y, .inl hi⟩)))
  · exact .inr (.inr (.inr (.inl ⟨y, .inr (.inl hi)⟩)))
  · exact .inr (.inr (.inr (.inl ⟨y, .inr (.inr (.inl hi))⟩)))
  · exact .inr (.inr (.inr (.inl ⟨y, .inr (.inr (.inr hi))⟩)))
  · exact .inr (.inr (.inl ⟨nn, .inr (.inr hi)⟩))
  · exact .inr (.inr (.inr (.inr (.inl hi))))
  · obtain rfl : x = vF := by bv_omega
    exact .inr (.inr (.inr (.inr (.inr hi))))
  · exact .inl ⟨x, y, hi⟩
  · exact .inr (.inl ⟨x, y, n, hi⟩)

end Sys2Proof.Machine
end

section
/-! PROOFS. Who reads what (10_state.md R22, read column): two states that agree on the parts an instruction reads let it answer two
states that agree wherever those two did; then O19. -/

namespace Sys2Proof.Machine

/-- The parts that an instruction reads; general registers by `readsRegister`, and `PC` only where it is more than advanced. -/
def readsPart : Instr → StatePart → Bool
  | i, .reg r => readsRegister i r
  | .call _, .pc => true
  | .call _, .depth => true
  | .ret _, .depth => true
  | .ret _, .slot _ => true
  | .ldVxDt _, .delay => true
  | .skp _, .key => true
  | .sknp _, .key => true
  | .addI _, .index => true
  | .ldB _, .index => true
  | .stRegs _, .index => true
  | .ldRegs _, .index => true
  | .ldRegs _, .byte _ => true
  | .drw _ _ _, .index => true
  | .drw _ _ _, .byte _ => true
  | .drw _ _ _, .pixel _ => true
  | .ldF _, .config => true
  | .rnd _ _, .draws => true
  | _, _ => false

/-- `t` and `t'` agree on every part that `s` and `s'` agree on, memory taken as a whole. -/
structure Tracks (s s' t t' : State) : Prop where
  same : ∀ p : StatePart, (∀ a, p ≠ .byte a) → p.Same s s' → p.Same t t'
  mem : s'.mem = s.mem → t'.mem = t.mem

/-! ### Agreement through the operations -/

section
variable {s s' t t' u u' : State}

theorem tracks_trans (h : Tracks s s' t t') (h' : Tracks t t' u u') : Tracks s s' u u' :=
  ⟨fun p hb hp => h'.same p hb (h.same p hb hp), fun hm => h'.mem (h.mem hm)⟩

/-- Setting one part, whichever it is, to the same value in both states. -/
theorem tracks_of_frame {ps : List StatePart} (hf : OnlyChanges ps s t) (hf' : OnlyChanges ps s' t')
    (hps : ∀ p ∈ ps, p.Same t t') (hmem : t.mem = s.mem) (hmem' : t'.mem = s'.mem) : Tracks s s' t t' := by
  refine ⟨fun p _ hp => ?_, fun hm => by rw [hmem, hmem', hm]⟩
  by_cases hp' : p ∈ ps
  · exact hps p hp'
  · have e := hf p hp'
    have e' := hf' p hp'
    cases p with
    | key | wait => exact ⟨e'.1.trans (hp.1.trans e.1.symm), e'.2.trans (hp.2.trans e.2.symm)⟩
    | _ => exact e'.trans (hp.trans e.symm)

theorem tracks_setPc (s s' : State) (w : Word) : Tracks s s' (s.setPc w) (s'.setPc w) :=
  tracks_of_frame (setPc_frame s w) (setPc_frame s' w) (by simp [StatePart.Same]) rfl rfl

theorem tracks_writeReg (s s' : State) (x : Reg) (b : Byte) : Tracks s s' (s.writeReg x b) (s'.writeReg x b) :=
  tracks_of_frame (writeReg_frame s x b) (writeReg_frame s' x b) (by simp [StatePart.Same]) rfl rfl

theorem tracks_setIndex (s s' : State) (w : Word) : Tracks s s' (s.setIndex w) (s'.setIndex w) :=
  tracks_of_frame (setIndex_frame s w) (setIndex_frame s' w) (by simp [StatePart.Same]) rfl rfl

theorem tracks_setDelay (s s' : State) (b : Byte) : Tracks s s' { s with dt := b } { s' with dt := b } :=
  tracks_of_frame (setDelay_frame s b) (setDelay_frame s' b) (by simp [StatePart.Same]) rfl rfl

theorem tracks_setSound (s s' : State) (b : Byte) : Tracks s s' { s with st := b } { s' with st := b } :=
  tracks_of_frame (setSound_frame s b) (setSound_frame s' b) (by simp [StatePart.Same]) rfl rfl

theorem tracks_setDraws (s s' : State) (n : Nat) : Tracks s s' { s with rndDraws := n } { s' with rndDraws := n } :=
  tracks_of_frame (setDraws_frame s n) (setDraws_frame s' n) (by simp [StatePart.Same]) rfl rfl

theorem tracks_setFramebuffer (s s' : State) (fb : Framebuffer) : Tracks s s' { s with fb := fb } { s' with fb := fb } :=
  tracks_of_frame (setFramebuffer_frame s fb) (setFramebuffer_frame s' fb) (by simp [StatePart.Same, allPixels]) rfl rfl

theorem tracks_setWait (s s' : State) (halted pending : Bool) (x : Reg) : Tracks s s'
    { s with isHalted := halted, hasPendingKeyWait := pending, pendingKeyWaitRegister := x }
    { s' with isHalted := halted, hasPendingKeyWait := pending, pendingKeyWaitRegister := x } :=
  tracks_of_frame (setWait_frame s halted pending x) (setWait_frame s' halted pending x) (by simp [StatePart.Same]) rfl rfl

theorem tracks_pop (s s' : State) (k : Fin 17) : Tracks s s' { s with sp := k } { s' with sp := k } :=
  tracks_of_frame (pop_frame s k) (pop_frame s' k) (by simp [StatePart.Same]) rfl rfl

theorem tracks_push (s s' : State) (k : Nat) (h : k < 16) (w : Word) (n : Fin 17) : Tracks s s'
    { s with stack := s.stack.set k w, sp := n } { s' with stack := s'.stack.set k w, sp := n } := by
  refine ⟨fun p hb hp => ?_, fun hm => hm⟩
  cases p with
  | depth => rfl
  | slot j =>
    have e : s'.stack[j.val] = s.stack[j.val] := hp
    simp [StatePart.Same, Vector.getElem_set, e]
  | _ => exact hp

theorem tracks_storeBytes (s s' : State) (a : Nat) (bs : List Byte) : Tracks s s' (s.storeBytes a bs) (s'.storeBytes a bs) := by
  refine ⟨fun p hb hp => ?_, fun hm => congrArg (Memory.writeBytes · a bs) hm⟩
  cases p with
  | byte a => exact absurd rfl (hb a)
  | _ => exact hp

theorem tracks_advance (s s' : State) : Tracks s s' s.advance s'.advance := by
  refine ⟨fun p _ hp => ?_, fun hm => hm⟩
  cases p with
  | pc => exact congrArg (· + 2#16) hp
  | _ => exact hp

theorem tracks_skipIf (s s' : State) (c : Bool) : Tracks s s' (s.skipIf c) (s'.skipIf c) := by
  refine ⟨fun p _ hp => ?_, fun hm => by rw [skipIf_mem, skipIf_mem, hm]⟩
  cases c
  · exact (tracks_advance s s').same p ‹_› hp
  · cases p with
    | pc => exact congrArg (· + 4#16) hp
    | _ => exact hp

theorem tracks_loadBlock {n : Nat} (hn : n ≤ 16) (hi : s'.i = s.i) (hm : ∀ a, s'.readByte a = s.readByte a) :
    Tracks s s' (s.loadBlock n) (s'.loadBlock n) := by
  obtain ⟨v, hv⟩ := loadBlock_eq s n
  obtain ⟨v', hv'⟩ := loadBlock_eq s' n
  refine tracks_of_frame (loadBlock_frame s hn) (loadBlock_frame s' hn) (fun p hp => ?_) (by rw [hv]) (by rw [hv'])
  obtain ⟨k, hk, rfl⟩ := List.mem_map.mp hp
  have hlt : (BitVec.ofNat 4 k).toNat < n := by
    rw [List.mem_range] at hk
    rw [BitVec.toNat_ofNat]
    omega
  change (s'.loadBlock n).readReg _ = (s.loadBlock n).readReg _
  rw [readReg_loadBlock s hn, readReg_loadBlock s' hn, if_pos hlt, if_pos hlt, hm, State.indexAddr, State.indexAddr, hi]

theorem tracks_flagThenResult {c c' : Bool} {x : Reg} {result : State → Byte} (hc : c' = c)
    (hr : result (s'.writeFlag c) = result (s.writeFlag c)) :
    Tracks s s' (s.flagThenResult c x result) (s'.flagThenResult c' x result) := by
  rw [hc, flagThenResult_eq, flagThenResult_eq, hr]
  exact tracks_trans (tracks_trans (tracks_writeReg s s' vF _) (tracks_writeReg _ _ x _)) (tracks_advance _ _)

theorem tracks_setRegNext {b b' : Byte} {x : Reg} (h : b' = b) :
    Tracks s s' (s.writeReg x b).advance (s'.writeReg x b').advance := by
  rw [h]
  exact tracks_trans (tracks_writeReg s s' x b) (tracks_advance _ _)

theorem tracks_setIndexNext {w w' : Word} (h : w' = w) :
    Tracks s s' (s.setIndex w).advance (s'.setIndex w').advance := by
  rw [h]
  exact tracks_trans (tracks_setIndex s s' w) (tracks_advance _ _)

theorem tracks_skip {c c' : Bool} (h : c' = c) : Tracks s s' (s.skipIf c) (s'.skipIf c') := by
  rw [h]
  exact tracks_skipIf s s' c

end

/-! ### Agreement through an instruction -/

/-- Two states with the same block of registers. -/
theorem regBlock_congr {s s' : State} {x : Reg} (h : ∀ r : Reg, r.toNat ≤ x.toNat → s'.readReg r = s.readReg r) :
    s'.regBlock x = s.regBlock x := by
  refine List.map_congr_left fun k hk => h _ ?_
  rw [List.mem_range, blockLength] at hk
  rw [BitVec.toNat_ofNat]
  omega

/-- What is drawn depends on the bytes, the index register and the framebuffer alone. -/
theorem drawRows_congr_bytes {s s' : State} (hm : ∀ a, s'.readByte a = s.readByte a) (hi : s'.i = s.i) (hf : s'.fb = s.fb)
    (x y n : Nat) : drawRows s' x y n = drawRows s x y n := by
  induction n with
  | zero => rw [drawRows, drawRows, hf]
  | succ n ih => rw [drawRows, drawRows, ih, hm, State.indexAddr, State.indexAddr, hi]

/-- An instruction run in a state that agrees on the parts it reads answers a state too, and the two answers agree wherever
the states they come from do. -/
theorem exec_tracks {i : Instr} {s s' t : State} (hr : ∀ p, readsPart i p = true → p.Same s s') (h : exec i s = .next t) :
    ∃ t', exec i s' = .next t' ∧ Tracks s s' t t' := by
  have reg : ∀ r, readsRegister i r = true → s'.readReg r = s.readReg r := fun r => hr (.reg r)
  cases i with
  | cls =>
    cases h
    exact ⟨_, rfl, tracks_trans (tracks_setFramebuffer s s' _) (tracks_advance _ _)⟩
  | ret =>
    obtain ⟨hsp, rfl⟩ := exec_ret_eq_next.mp h
    have esp : s'.sp = s.sp := hr .depth rfl
    have etop : s'.stack[s.sp.val - 1] = s.stack[s.sp.val - 1] := hr (.slot ⟨s.sp.val - 1, by omega⟩) rfl
    refine ⟨_, exec_ret_eq_next.mpr ⟨by rwa [esp], rfl⟩, ?_⟩
    simp only [esp, etop]
    exact tracks_trans (tracks_pop s s' _) (tracks_setPc _ _ _)
  | call =>
    obtain ⟨hsp, rfl⟩ := exec_call_eq_next.mp h
    have esp : s'.sp = s.sp := hr .depth rfl
    have epc : s'.pc = s.pc := hr .pc rfl
    refine ⟨_, exec_call_eq_next.mpr ⟨by rwa [esp], rfl⟩, ?_⟩
    simp only [esp, epc]
    exact tracks_trans (tracks_push s s' _ hsp _ _) (tracks_setPc _ _ _)
  | jp =>
    cases h
    exact ⟨_, rfl, tracks_setPc s s' _⟩
  | jpV0 =>
    cases h
    refine ⟨_, rfl, ?_⟩
    rw [State.regWord, State.regWord, reg 0#4 rfl]
    exact tracks_setPc s s' _
  | seImm x nn | sneImm x nn =>
    cases h
    exact ⟨_, rfl, tracks_skip (by rw [reg x (by simp [readsRegister])])⟩
  | seReg x y | sneReg x y =>
    cases h
    exact ⟨_, rfl, tracks_skip (by rw [reg x (by simp [readsRegister]), reg y (by simp [readsRegister])])⟩
  | skp x | sknp x =>
    cases h
    obtain ⟨hvalid, hcode⟩ : StatePart.key.Same s s' := hr .key rfl
    exact ⟨_, rfl, tracks_skip (by simp only [State.pressed, hvalid, hcode, reg x (by simp [readsRegister])])⟩
  | ldImm =>
    cases h
    exact ⟨_, rfl, tracks_setRegNext rfl⟩
  | addImm x =>
    cases h
    exact ⟨_, rfl, tracks_setRegNext (by rw [reg x (by simp [readsRegister])])⟩
  | ldReg x y =>
    cases h
    exact ⟨_, rfl, tracks_setRegNext (reg y (by simp [readsRegister]))⟩
  | orReg x y | andReg x y | xorReg x y =>
    cases h
    exact ⟨_, rfl, tracks_setRegNext (by rw [reg x (by simp [readsRegister]), reg y (by simp [readsRegister])])⟩
  | ldVxDt =>
    cases h
    exact ⟨_, rfl, tracks_setRegNext (hr .delay rfl)⟩
  | addReg x y | subReg x y | subnReg x y =>
    cases h
    have ex := reg x (by simp [readsRegister])
    have ey := reg y (by simp [readsRegister])
    exact ⟨_, rfl, tracks_flagThenResult (by rw [ex, ey]) (by simp only [readReg_writeFlag, ex, ey])⟩
  | shr x | shl x =>
    cases h
    have ex := reg x (by simp [readsRegister])
    exact ⟨_, rfl, tracks_flagThenResult (by rw [ex]) (by simp only [readReg_writeFlag, ex])⟩
  | ldI =>
    cases h
    exact ⟨_, rfl, tracks_setIndexNext rfl⟩
  | addI x =>
    cases h
    have ei : s'.i = s.i := hr .index rfl
    exact ⟨_, rfl, tracks_setIndexNext (by rw [State.regWord, State.regWord, ei, reg x (by simp [readsRegister])])⟩
  | ldF x =>
    cases h
    have ec : s'.config = s.config := hr .config rfl
    exact ⟨_, rfl, tracks_setIndexNext (by rw [State.glyphAddr, State.glyphAddr, ec, reg x (by simp [readsRegister])])⟩
  | rnd x =>
    cases h
    have ed : s'.rndDraws = s.rndDraws := hr .draws rfl
    refine ⟨_, rfl, ?_⟩
    rw [ed]
    exact tracks_trans (tracks_setDraws s s' _) (tracks_setRegNext rfl)
  | drw x y n =>
    obtain ⟨hrange, rfl⟩ := exec_drw_eq_next.mp h
    have ei : s'.i = s.i := hr .index rfl
    have edraw := drawRows_congr_bytes (s := s) (s' := s') (fun a => hr (.byte a) rfl) ei
      (framebuffer_ext fun p => hr (.pixel p) rfl)
    refine ⟨_, exec_drw_eq_next.mpr ⟨by rwa [ei], rfl⟩, ?_⟩
    rw [reg x (by simp [readsRegister]), reg y (by simp [readsRegister]), edraw]
    exact tracks_trans (tracks_setFramebuffer s s' _) (tracks_setRegNext rfl)
  | ldVxK =>
    cases h
    exact ⟨_, rfl, tracks_setWait s s' _ _ _⟩
  | ldDtVx x =>
    cases h
    refine ⟨_, rfl, ?_⟩
    rw [reg x (by simp [readsRegister])]
    exact tracks_trans (tracks_setDelay s s' _) (tracks_advance _ _)
  | ldStVx x =>
    cases h
    refine ⟨_, rfl, ?_⟩
    rw [reg x (by simp [readsRegister])]
    exact tracks_trans (tracks_setSound s s' _) (tracks_advance _ _)
  | ldB x =>
    obtain ⟨hrange, rfl⟩ := exec_ldB_eq_next.mp h
    have ei : s'.i = s.i := hr .index rfl
    refine ⟨_, exec_ldB_eq_next.mpr ⟨by rwa [ei], rfl⟩, ?_⟩
    rw [State.indexAddr, State.indexAddr, ei, reg x (by simp [readsRegister])]
    exact tracks_trans (tracks_storeBytes s s' _ _) (tracks_advance _ _)
  | stRegs x =>
    obtain ⟨hrange, rfl⟩ := exec_stRegs_eq_next.mp h
    have ei : s'.i = s.i := hr .index rfl
    refine ⟨_, exec_stRegs_eq_next.mpr ⟨by rwa [ei], rfl⟩, ?_⟩
    rw [State.indexAddr, State.indexAddr, ei, regBlock_congr fun r hle => reg r (by simpa [readsRegister] using hle)]
    exact tracks_trans (tracks_storeBytes s s' _ _) (tracks_advance _ _)
  | ldRegs x =>
    obtain ⟨hrange, rfl⟩ := exec_ldRegs_eq_next.mp h
    have ei : s'.i = s.i := hr .index rfl
    refine ⟨_, exec_ldRegs_eq_next.mpr ⟨by rwa [ei], rfl⟩, ?_⟩
    exact tracks_trans (tracks_loadBlock (by omega) ei fun a => hr (.byte a) rfl) (tracks_advance _ _)

/-! ### The table, read by part -/

section
variable {i : Instr}

theorem readsPart_sound (i : Instr) : readsPart i .sound = false := by
  cases i <;> rfl

theorem readsPart_wait (i : Instr) : readsPart i .wait = false := by
  cases i <;> rfl

theorem readsPart_waitReg (i : Instr) : readsPart i .waitReg = false := by
  cases i <;> rfl

theorem readsPart_delay (h : ∀ x, i ≠ .ldVxDt x) : readsPart i .delay = false := by
  cases i with
  | ldVxDt x => exact absurd rfl (h x)
  | _ => rfl

theorem readsPart_key (h : ∀ x, i ≠ .skp x ∧ i ≠ .sknp x) : readsPart i .key = false := by
  cases i with
  | skp x => exact absurd rfl (h x).1
  | sknp x => exact absurd rfl (h x).2
  | _ => rfl

theorem readsPart_pixel (h : ∀ x y n, i ≠ .drw x y n) (p : Fin 2048) : readsPart i (.pixel p) = false := by
  cases i with
  | drw x y n => exact absurd rfl (h x y n)
  | _ => rfl

theorem readsPart_depth (h : ∀ nnn ign, i ≠ .call nnn ∧ i ≠ .ret ign) : readsPart i .depth = false := by
  cases i with
  | call nnn => exact absurd rfl (h nnn 0#4).1
  | ret ign => exact absurd rfl (h 0#12 ign).2
  | _ => rfl

theorem readsPart_slot (h : ∀ nnn ign, i ≠ .call nnn ∧ i ≠ .ret ign) (k : Fin 16) : readsPart i (.slot k) = false := by
  cases i with
  | ret ign => exact absurd rfl (h 0#12 ign).2
  | _ => rfl

theorem readsPart_index (h : ∀ x y n, i ≠ .addI x ∧ i ≠ .ldB x ∧ i ≠ .stRegs x ∧ i ≠ .ldRegs x ∧ i ≠ .drw x y n) :
    readsPart i .index = false := by
  cases i with
  | addI x => exact absurd rfl (h x 0#4 0#4).1
  | ldB x => exact absurd rfl (h x 0#4 0#4).2.1
  | stRegs x => exact absurd rfl (h x 0#4 0#4).2.2.1
  | ldRegs x => exact absurd rfl (h x 0#4 0#4).2.2.2.1
  | drw x y n => exact absurd rfl (h x y n).2.2.2.2
  | _ => rfl

theorem readsPart_byte (h : ∀ x y n, i ≠ .ldRegs x ∧ i ≠ .drw x y n) (a : Nat) : readsPart i (.byte a) = false := by
  cases i with
  | ldRegs x => exact absurd rfl (h x 0#4 0#4).1
  | drw x y n => exact absurd rfl (h x y n).2
  | _ => rfl

theorem readsPart_pc (h : ∀ nnn, i ≠ .call nnn) : readsPart i .pc = false := by
  cases i with
  | call nnn => exact absurd rfl (h nnn)
  | _ => rfl

end

/-! ### A part that is not read, changed -/

/-- Every slot of the stack. -/
def allSlots : List StatePart := (List.finRange 16).map .slot

theorem setKey_frame (s : State) (v : Bool) (c : Nibble) : OnlyChanges [.key] s { s with keyValid := v, keyCode := c } := by
  intro p hp
  cases p with
  | key => exact absurd hp (by simp)
  | wait => exact ⟨rfl, rfl⟩
  | _ => rfl

theorem setStack_frame (s : State) (k : Fin 17) (stack : Vector Word 16) :
    OnlyChanges (.depth :: allSlots) s { s with sp := k, stack := stack } := by
  intro p hp
  cases p with
  | depth => exact absurd hp (by simp)
  | slot j => exact absurd hp (by simp [allSlots])
  | key | wait => exact ⟨rfl, rfl⟩
  | _ => rfl

section
variable {i : Instr} {s s' t : State}

/-- Outside the parts that differ, an instruction that reads none of them leaves the same. -/
theorem exec_ignores {ps : List StatePart} (hs : OnlyChanges ps s s') (hmem : s'.mem = s.mem)
    (hr : ∀ p ∈ ps, readsPart i p = false) (h : exec i s = .next t) :
    ∃ t', exec i s' = .next t' ∧ OnlyChanges ps t t' := by
  obtain ⟨t', ht', htracks⟩ := exec_tracks (s' := s') (fun p hp => hs p fun e => by simp [hr p e] at hp) h
  refine ⟨t', ht', fun p hp => ?_⟩
  cases p with
  | byte a => exact readByte_congr (htracks.mem hmem) a
  | _ => exact htracks.same _ nofun (hs _ hp)

/-- The state's memory, for an instruction that does not read it. -/
theorem exec_ignores_mem (hr : ∀ a, readsPart i (.byte a) = false) (m : Memory) (h : exec i s = .next t) :
    ∃ t', exec i { s with mem := m } = .next t' ∧ ∀ p : StatePart, (∀ a, p ≠ .byte a) → p.Same t t' := by
  have hs : ∀ p : StatePart, (∀ a, p ≠ .byte a) → p.Same s { s with mem := m } := by
    intro p hb
    cases p with
    | byte a => exact absurd rfl (hb a)
    | key | wait => exact ⟨rfl, rfl⟩
    | _ => rfl
  obtain ⟨t', ht', htracks⟩ := exec_tracks (s' := { s with mem := m })
    (fun p hp => hs p fun a e => by simp [e, hr a] at hp) h
  exact ⟨t', ht', fun p hb => htracks.same p hb (hs p hb)⟩

/-- `JP`, `JP V0` and `RET` set `PC` to a value that does not depend on it. -/
theorem jump_pc_of_setPc {w : Word} {t' : State} (hi : ∃ nnn ign, i = .jp nnn ∨ i = .jpV0 nnn ∨ i = .ret ign)
    (h : exec i s = .next t) (h' : exec i (s.setPc w) = .next t') : t'.pc = t.pc := by
  obtain ⟨nnn, ign, rfl | rfl | rfl⟩ := hi
  · cases h
    cases h'
    rfl
  · cases h
    cases h'
    rfl
  · obtain ⟨_, rfl⟩ := exec_ret_eq_next.mp h
    obtain ⟨_, rfl⟩ := exec_ret_eq_next.mp h'
    rfl

end

/-- Settles O19: each part by its row of `readsPart`. -/
theorem instructionsReadOnlyAsSummarized : Obligations.InstructionsReadOnlyAsSummarized := by
  unfold Obligations.InstructionsReadOnlyAsSummarized
  intro i s t h
  refine ⟨fun b => ?_, fun hi b => ?_, fun hi v c => ?_, fun hi fb => ?_, fun hi k st => ?_, fun hi w => ?_,
    fun hi m => exec_ignores_mem (readsPart_byte hi) m h, fun r b hr => ?_, fun hi w => ?_, fun halted pending x => ?_⟩
  · obtain ⟨t', ht', hsame⟩ := exec_ignores (setSound_frame s b) rfl (by simp [readsPart_sound]) h
    exact ⟨t', ht', fun p hp => hsame p (by simpa using hp)⟩
  · obtain ⟨t', ht', hsame⟩ := exec_ignores (setDelay_frame s b) rfl (by simp [readsPart_delay hi]) h
    exact ⟨t', ht', fun p hp => hsame p (by simpa using hp)⟩
  · obtain ⟨t', ht', hsame⟩ := exec_ignores (setKey_frame s v c) rfl (by simp [readsPart_key hi]) h
    exact ⟨t', ht', fun p hp => hsame p (by simpa using hp)⟩
  · obtain ⟨t', ht', hsame⟩ := exec_ignores (setFramebuffer_frame s fb) rfl (by simp [allPixels, readsPart_pixel hi]) h
    exact ⟨t', ht', fun p hp => hsame p (by simpa [allPixels, eq_comm] using hp)⟩
  · obtain ⟨t', ht', hsame⟩ := exec_ignores (setStack_frame s k st) rfl
      (by simp [allSlots, readsPart_depth hi, readsPart_slot hi]) h
    exact ⟨t', ht', fun p hp hslot => hsame p (by simpa [allSlots, hp, eq_comm] using hslot)⟩
  · obtain ⟨t', ht', hsame⟩ := exec_ignores (setIndex_frame s w) rfl (by simp [readsPart_index hi]) h
    exact ⟨t', ht', fun p hp => hsame p (by simpa using hp)⟩
  · obtain ⟨t', ht', hsame⟩ := exec_ignores (ps := [.reg r]) (writeReg_frame s r b) rfl
      (fun p hp => by rw [List.mem_singleton.mp hp]; exact hr) h
    exact ⟨t', ht', fun p hp => hsame p (by simpa using hp)⟩
  · obtain ⟨t', ht', hsame⟩ := exec_ignores (setPc_frame s w) rfl (by simp [readsPart_pc hi]) h
    exact ⟨t', ht', fun p hp => hsame p (by simpa using hp), fun hj => jump_pc_of_setPc hj h ht'⟩
  · obtain ⟨t', ht', hsame⟩ := exec_ignores (setWait_frame s halted pending x) rfl
      (by simp [readsPart_wait, readsPart_waitReg]) h
    exact ⟨t', ht', fun p hp hp' => hsame p (by simp [hp, hp'])⟩

end Sys2Proof.Machine
end

section
/-! PROOFS. Control transfer (40_control_transfer.md) and the key instructions (44_keyboard.md R141 to R143): O25 to O32, O50, O51. Each
instruction's word is its own encoding, and its frame is its row of `changedParts`. -/

namespace Sys2Proof.Machine

/-! ### `PC` as a number (R14) -/

theorem zext16_toNat (nnn : Addr12) : (zext16 nnn).toNat = nnn.toNat :=
  BitVec.toNat_setWidth_of_le (by decide)

theorem regWord_toNat (s : State) (x : Reg) : (s.regWord x).toNat = (s.readReg x).toNat :=
  BitVec.toNat_setWidth_of_le (by decide)

theorem advance_pc_toNat (s : State) : s.advance.pc.toNat = (s.pc.toNat + 2) % 65536 :=
  BitVec.toNat_add s.pc 2#16

section
variable {c : Bool} {p : Prop} [Decidable p]

/-- A skip whose test is `p`. -/
theorem skipIf_pc_toNat (s : State) (h : c = true ↔ p) :
    (s.skipIf c).pc.toNat = (s.pc.toNat + if p then 4 else 2) % 65536 := by
  rw [skipIf_pc]
  by_cases hp : p
  · rw [if_pos (h.mpr hp), if_pos hp, BitVec.toNat_add]
    rfl
  · rw [if_neg (fun hc => hp (h.mp hc)), if_neg hp, BitVec.toNat_add]
    rfl

/-- A skip whose test is that `p` fails. -/
theorem skipIf_pc_toNat_of_not (s : State) (h : c = true ↔ ¬ p) :
    (s.skipIf c).pc.toNat = (s.pc.toNat + if p then 2 else 4) % 65536 := by
  rw [skipIf_pc_toNat s h, ite_not]

end

/-- The test of a `SE`, on numbers. -/
theorem beq_iff_toNat_eq {n : Nat} (a b : BitVec n) : (a == b) = true ↔ a.toNat = b.toNat := by
  rw [beq_iff_eq, BitVec.toNat_inj]

/-- The test of a `SNE`, on numbers. -/
theorem bne_iff_toNat_ne {n : Nat} (a b : BitVec n) : (a != b) = true ↔ ¬ a.toNat = b.toNat := by
  rw [bne_iff_ne, ne_eq, BitVec.toNat_inj]

/-! ### Jumps -/

/-- Settles O25: the zero-extended address. -/
theorem jumpSetsPc : Obligations.JumpSetsPc := by
  unfold Obligations.JumpSetsPc
  exact fun nnn s => ⟨decodeWord_encode (.jp nnn), _, rfl, zext16_toNat nnn, exec_frame (i := .jp nnn) rfl⟩

/-- Settles O26: a 12-bit and an 8-bit number add up below 65536. -/
theorem offsetJumpAddsV0 : Obligations.OffsetJumpAddsV0 := by
  unfold Obligations.OffsetJumpAddsV0
  refine fun nnn s => ⟨decodeWord_encode (.jpV0 nnn), _, rfl, ?_, exec_frame (i := .jpV0 nnn) rfl⟩
  have hn := nnn.isLt
  have hv := (s.readReg 0#4).isLt
  rw [setPc_pc, BitVec.toNat_add, zext16_toNat, regWord_toNat, Nat.mod_eq_of_lt (by omega)]

/-! ### Calls and returns -/

/-- Settles O27: the slot that is written is the one `SP` counts to. -/
theorem callPushesReturnAddress : Obligations.CallPushesReturnAddress := by
  unfold Obligations.CallPushesReturnAddress
  refine fun nnn s => ⟨decodeWord_encode (.call nnn), exec_call_of_full nnn, fun k hk => ?_⟩
  have hlt : s.sp.val < 16 := by omega
  have hframe := exec_frame (exec_call_of_lt nnn hlt)
  have hslot : Fin.ofNat 16 s.sp.val = k := Fin.ext (by rw [Fin.val_ofNat, hk, Nat.mod_eq_of_lt k.isLt])
  rw [changedParts, hslot] at hframe
  refine ⟨_, exec_call_of_lt nnn hlt, ?_, congrArg (· + 1) hk, zext16_toNat nnn, hframe⟩
  simp [hk]

/-- Settles O28: `SP` counts down and its new slot is read. -/
theorem returnPopsReturnAddress : Obligations.ReturnPopsReturnAddress := by
  unfold Obligations.ReturnPopsReturnAddress
  refine fun ign s => ⟨decodeWord_encode (.ret ign), exec_ret_of_empty ign, fun k hk => ?_⟩
  have hpos : 0 < s.sp.val := by omega
  refine ⟨_, exec_ret_of_pos ign hpos, ?_, ?_, exec_frame (exec_ret_of_pos ign hpos)⟩
  · simp [hk]
  · simp [hk]

/-- Settles O29: the slot that `CALL` writes is the one that `RET` at that depth reads. -/
theorem returnUndoesCall : Obligations.ReturnUndoesCall := by
  unfold Obligations.ReturnUndoesCall
  intro nnn ign s t u h hstack hsp
  obtain ⟨hlt, rfl⟩ := exec_call_eq_next.mp h
  simp only [setPc_stack, setPc_sp] at hstack hsp
  refine ⟨_, exec_ret_of_pos ign (by simp [hsp]), ?_, ?_⟩
  · simp [hstack, hsp]
  · simp [hsp]

/-! ### Skips -/

/-- Settles O30: each test compared on numbers. -/
theorem skipsCompareWithImmediate : Obligations.SkipsCompareWithImmediate := by
  unfold Obligations.SkipsCompareWithImmediate
  exact fun x nn s => ⟨decodeWord_encode (.seImm x nn), decodeWord_encode (.sneImm x nn),
    ⟨_, rfl, exec_frame (i := .seImm x nn) rfl, skipIf_pc_toNat s (beq_iff_toNat_eq _ _)⟩,
    ⟨_, rfl, exec_frame (i := .sneImm x nn) rfl, skipIf_pc_toNat_of_not s (bne_iff_toNat_ne _ _)⟩⟩

/-- Settles O31; with `X = Y` the two operands are one register. -/
theorem skipsCompareRegisters : Obligations.SkipsCompareRegisters := by
  unfold Obligations.SkipsCompareRegisters
  refine fun x y ign s => ⟨decodeWord_encode (.seReg x y ign), decodeWord_encode (.sneReg x y ign),
    ⟨_, rfl, exec_frame (i := .seReg x y ign) rfl, skipIf_pc_toNat s (beq_iff_toNat_eq _ _), ?_⟩,
    ⟨_, rfl, exec_frame (i := .sneReg x y ign) rfl, skipIf_pc_toNat_of_not s (bne_iff_toNat_ne _ _), ?_⟩⟩
  · rintro rfl
    simp
  · rintro rfl
    simp

/-! ### The keys -/

theorem pressed_iff (s : State) (b : Byte) : s.pressed b = true ↔ s.keyValid = true ∧ s.keyCode.toNat = b.toNat := by
  rw [State.pressed, Bool.and_eq_true, beq_iff_toNat_eq, BitVec.toNat_setWidth_of_le (by decide)]

/-- A key code has four bits, so no key answers to a value above 15 (R140). -/
theorem pressed_of_gt (s : State) {b : Byte} (h : 15 < b.toNat) : s.pressed b = false := by
  have hk := s.keyCode.isLt
  rw [← Bool.not_eq_true, pressed_iff]
  omega

/-- Settles O50: the test on numbers; a value above 15 is no key's. -/
theorem keySkipsTestCurrentKey : Obligations.KeySkipsTestCurrentKey := by
  unfold Obligations.KeySkipsTestCurrentKey
  refine fun x s => ⟨decodeWord_encode (.skp x), decodeWord_encode (.sknp x),
    ⟨_, rfl, exec_frame (i := .skp x) rfl, skipIf_pc_toNat s (pressed_iff s _), fun h => ?_⟩,
    ⟨_, rfl, exec_frame (i := .sknp x) rfl, skipIf_pc_toNat_of_not s ?_, fun h => ?_⟩⟩
  · rw [skipIf_pc, pressed_of_gt s h]
    rfl
  · rw [Bool.not_eq_true', ← Bool.not_eq_true, pressed_iff]
  · rw [skipIf_pc, pressed_of_gt s h]
    rfl

/-- Settles O51: the state that `LD Vx, K` answers is a waiting one. -/
theorem keyWaitHaltsWithoutAdvancing : Obligations.KeyWaitHaltsWithoutAdvancing := by
  unfold Obligations.KeyWaitHaltsWithoutAdvancing
  exact fun x s => ⟨decodeWord_encode (.ldVxK x), _, rfl, rfl, rfl, rfl, rfl, exec_frame (i := .ldVxK x) rfl, stepInstr_halted rfl,
    stepResult_halted rfl, fun w h hf hd => stepResult_executed h (stepInstr_decoded h hf hd)⟩

/-! ### The jump to itself (R186) -/

theorem endOfRun_iff (s : State) : endOfRun s = true ↔ s.isHalted = false ∧
    ∃ w nnn, s.fetchWord = .ok w ∧ decodeWord w = .ok (.jp nnn) ∧ zext16 nnn = s.pc := by
  unfold endOfRun
  rw [Bool.and_eq_true, Bool.not_eq_true']
  refine and_congr_right fun _ => ⟨fun h => ?_, ?_⟩
  · split at h
    · cases h
    · split at h
      · exact ⟨_, _, ‹_›, ‹_›, beq_iff_eq.mp h⟩
      · cases h
  · rintro ⟨w, nnn, hf, hd, hpc⟩
    simp [hf, hd, hpc]

theorem step_of_endOfRun {s : State} (h : endOfRun s = true) (hops : s.hostOps = []) : step s = .next s := by
  obtain ⟨hh, w, nnn, hf, hd, hpc⟩ := (endOfRun_iff s).mp h
  rw [step, hops]
  change stepInstr s = .next s
  rw [stepInstr_decoded hh hf hd, exec, execJp, hpc]
  rfl

theorem run_succ_of_next (M : Host.Core) {s t : M.State} (h : M.step s = .next t) (n : Nat) : M.run (n + 1) s = M.run n t := by
  rw [Host.Core.run, h]

/-- Settles O32: one step is a fixed point, so any number of steps is. -/
theorem selfJumpChangesNothing : Obligations.SelfJumpChangesNothing := by
  unfold Obligations.SelfJumpChangesNothing
  intro s h hops
  have hstep := step_of_endOfRun h hops
  refine ⟨hstep, fun n => ?_, fun n => ?_⟩
  · induction n with
    | zero => rfl
    | succ n ih => rwa [faultFree, hstep]
  · induction n with
    | zero => rfl
    | succ n ih => exact (run_succ_of_next Sys2Proof.core hstep n).trans ih

end Sys2Proof.Machine
end

section
/-! PROOFS. Registers and ALU (41_alu.md), the index register (42_index_memory.md R120 to R122), CLS (43_display.md R130) and the timer
loads (45_timers.md R150 to R152): O33 to O41, O47, O52. -/

namespace Sys2Proof.Machine

/-! ### One register, no flag -/

theorem readReg_setRegNext (s : State) (x : Reg) (b : Byte) : (s.writeReg x b).advance.readReg x = b := by
  rw [readReg_advance, readReg_writeReg, if_pos rfl]

/-- Settles O33: the sum wraps at 8 bits. -/
theorem loadAndAddWriteOneRegister : Obligations.LoadAndAddWriteOneRegister := by
  unfold Obligations.LoadAndAddWriteOneRegister
  refine fun x y nn s => ⟨decodeWord_encode (.ldImm x nn), decodeWord_encode (.addImm x nn), decodeWord_encode (.ldReg x y),
    ⟨_, rfl, readReg_setRegNext s x _, advance_pc_toNat _, exec_frame (i := .ldImm x nn) rfl⟩,
    ⟨_, rfl, ?_, advance_pc_toNat _, exec_frame (i := .addImm x nn) rfl⟩,
    ⟨_, rfl, readReg_setRegNext s x _, advance_pc_toNat _, exec_frame (i := .ldReg x y) rfl⟩⟩
  exact (congrArg BitVec.toNat (readReg_setRegNext s x _)).trans (BitVec.toNat_add _ _)

/-- Settles O34: bit by bit, and idempotent or zero where the operands are one register. -/
theorem logicWritesOneRegister : Obligations.LogicWritesOneRegister := by
  unfold Obligations.LogicWritesOneRegister
  refine fun x y s => ⟨decodeWord_encode (.orReg x y), decodeWord_encode (.andReg x y), decodeWord_encode (.xorReg x y),
    ⟨_, rfl, ?_, fun b _ => ?_, advance_pc_toNat _, exec_frame (i := .orReg x y) rfl⟩,
    ⟨_, rfl, ?_, fun b _ => ?_, advance_pc_toNat _, exec_frame (i := .andReg x y) rfl⟩,
    ⟨_, rfl, ?_, fun b _ => ?_, advance_pc_toNat _, exec_frame (i := .xorReg x y) rfl⟩⟩
  · rintro rfl
    exact (readReg_setRegNext s x _).trans BitVec.or_self
  · rw [readReg_setRegNext, BitVec.getLsbD_or]
  · rintro rfl
    exact (readReg_setRegNext s x _).trans BitVec.and_self
  · rw [readReg_setRegNext, BitVec.getLsbD_and]
  · rintro rfl
    exact (readReg_setRegNext s x _).trans BitVec.xor_self
  · rw [readReg_setRegNext, BitVec.getLsbD_xor]

/-! ### The flag first, then the result (R100) -/

/-- An operand as the result sees it: register 15 holds the flag by then. -/
def operandAfterFlag (s : State) (flag : Bool) (r : Reg) : Byte := if r = vF then flagByte flag else s.readReg r

section
variable {s : State} {flag : Bool} {x y : Reg}

theorem operandAfterFlag_of_ne (h : y ≠ vF) : operandAfterFlag s flag y = s.readReg y := if_neg h

theorem operandAfterFlag_vF : operandAfterFlag s flag vF = flagByte flag := if_pos rfl

theorem readReg_vF_flagThenResult (hx : x ≠ vF) (result : State → Byte) :
    (s.flagThenResult flag x result).readReg vF = flagByte flag := by
  rw [flagThenResult_eq, readReg_advance, readReg_writeReg, if_neg hx.symm, readReg_writeFlag, if_pos rfl]

/-- `X` is the destination: the four cases of register 15 among two operands, for an operation that is `f` on numbers. -/
theorem flagThenResult_binary {op : Byte → Byte → Byte} {f : Nat → Nat → Nat} {c : Nat}
    (hop : ∀ a b, (op a b).toNat = f a.toNat b.toNat) (hc : (flagByte flag).toNat = c) {t : State}
    (ht : t = s.flagThenResult flag x fun u => op (u.readReg x) (u.readReg y)) :
    (x ≠ vF → y ≠ vF → (t.readReg x).toNat = f (s.readReg x).toNat (s.readReg y).toNat ∧ (t.readReg vF).toNat = c) ∧
    (x = vF → y ≠ vF → (t.readReg vF).toNat = f c (s.readReg y).toNat) ∧
    (x ≠ vF → y = vF → (t.readReg vF).toNat = c ∧ (t.readReg x).toNat = f (s.readReg x).toNat c) ∧
    (x = vF → y = vF → (t.readReg vF).toNat = f c c) := by
  have hdest : t.readReg x = op (operandAfterFlag s flag x) (operandAfterFlag s flag y) := by
    rw [ht, flagThenResult_eq, readReg_setRegNext, readReg_writeFlag, readReg_writeFlag, operandAfterFlag, operandAfterFlag]
  have hflag : x ≠ vF → (t.readReg vF).toNat = c := fun hx => by rw [ht, readReg_vF_flagThenResult hx, hc]
  refine ⟨fun hx hy => ⟨?_, hflag hx⟩, ?_, fun hx hy => ⟨hflag hx, ?_⟩, ?_⟩
  · rw [hdest, operandAfterFlag_of_ne hx, operandAfterFlag_of_ne hy, hop]
  · rintro rfl hy
    rw [hdest, operandAfterFlag_vF, operandAfterFlag_of_ne hy, hop, hc]
  · subst hy
    rw [hdest, operandAfterFlag_vF, operandAfterFlag_of_ne hx, hop, hc]
  · rintro rfl rfl
    rw [hdest, operandAfterFlag_vF, hop, hc]

/-- The same for one operand. -/
theorem flagThenResult_unary {op : Byte → Byte} {f : Nat → Nat} {c : Nat}
    (hop : ∀ a, (op a).toNat = f a.toNat) (hc : (flagByte flag).toNat = c) {t : State}
    (ht : t = s.flagThenResult flag x fun u => op (u.readReg x)) :
    (x ≠ vF → (t.readReg x).toNat = f (s.readReg x).toNat ∧ (t.readReg vF).toNat = c) ∧
    (x = vF → (t.readReg vF).toNat = f c) := by
  have hdest : t.readReg x = op (operandAfterFlag s flag x) := by
    rw [ht, flagThenResult_eq, readReg_setRegNext, readReg_writeFlag, operandAfterFlag]
  refine ⟨fun hx => ⟨?_, ?_⟩, ?_⟩
  · rw [hdest, operandAfterFlag_of_ne hx, hop]
  · rw [ht, readReg_vF_flagThenResult hx, hc]
  · rintro rfl
    rw [hdest, operandAfterFlag_vF, hop, hc]

end

/-! ### The flags as numbers (R107 to R111) -/

theorem carryFlag_toNat (a b : Byte) : (flagByte (carryFlag a b)).toNat = if a.toNat + b.toNat > 255 then 1 else 0 := by
  have ha := a.isLt
  have h : b.toNat > 255 - a.toNat ↔ a.toNat + b.toNat > 255 := by omega
  simp only [flagByte_toNat, carryFlag, decide_eq_true_eq, h]

theorem borrowFlag_toNat (a b : Byte) : (flagByte (borrowFlag a b)).toNat = if a.toNat < b.toNat then 1 else 0 := by
  simp only [flagByte_toNat, borrowFlag, decide_eq_true_eq]

theorem subnFlag_toNat (a b : Byte) : (flagByte (subnFlag a b)).toNat = if a.toNat < b.toNat then 0 else 1 := by
  simp only [flagByte_toNat, subnFlag, Bool.not_eq_true', decide_eq_false_iff_not, ite_not]

theorem shrFlag_toNat (a : Byte) : (flagByte (shrFlag a)).toNat = a.toNat % 2 := by
  have h : (a &&& 1#8).toNat = a.toNat % 2 := (BitVec.toNat_and a 1#8).trans (Nat.and_one_is_mod _)
  simp only [flagByte_toNat, shrFlag, beq_iff_toNat_eq, h, BitVec.toNat_ofNat]
  split_ifs <;> omega

theorem shlFlag_toNat (a : Byte) : (flagByte (shlFlag a)).toNat = a.toNat / 128 := by
  have ha := a.isLt
  simp only [flagByte_toNat, shlFlag, beq_iff_toNat_eq, BitVec.toNat_ushiftRight, Nat.shiftRight_eq_div_pow, BitVec.toNat_ofNat]
  split_ifs <;> omega

/-! ### The results as numbers -/

theorem byte_sub_toNat (a b : Byte) : (a - b).toNat = (a.toNat + 256 - b.toNat) % 256 := by
  have hb := b.isLt
  rw [BitVec.toNat_sub]
  omega

theorem byte_shiftRight_toNat (a : Byte) : (a >>> 1).toNat = a.toNat / 2 := by
  rw [BitVec.toNat_ushiftRight, Nat.shiftRight_eq_div_pow, pow_one]

theorem byte_shiftLeft_toNat (a : Byte) : (a <<< 1).toNat = a.toNat * 2 % 256 := by
  rw [BitVec.toNat_shiftLeft, Nat.shiftLeft_eq, pow_one]

/-- Settles O35; with register 15 twice the sum is the carry twice. -/
theorem addWritesCarryThenSum : Obligations.AddWritesCarryThenSum := by
  unfold Obligations.AddWritesCarryThenSum
  refine fun x y s => ⟨decodeWord_encode (.addReg x y), _, rfl, advance_pc_toNat _, exec_frame (i := .addReg x y) rfl, ?_⟩
  obtain ⟨neither, onlyX, onlyY, both⟩ := flagThenResult_binary (op := (· + ·)) (f := fun a b => (a + b) % 256)
    BitVec.toNat_add (carryFlag_toNat (s.readReg x) (s.readReg y)) rfl
  refine ⟨neither, onlyX, onlyY, fun hx hy => (both hx hy).trans ?_⟩
  split_ifs <;> rfl

/-- Settles O36; with register 15 twice the borrow is taken from itself. -/
theorem subWritesBorrowThenDifference : Obligations.SubWritesBorrowThenDifference := by
  unfold Obligations.SubWritesBorrowThenDifference
  refine fun x y s => ⟨decodeWord_encode (.subReg x y), _, rfl, advance_pc_toNat _, exec_frame (i := .subReg x y) rfl, ?_⟩
  obtain ⟨neither, onlyX, onlyY, both⟩ := flagThenResult_binary (op := (· - ·)) (f := fun a b => (a + 256 - b) % 256)
    byte_sub_toNat (borrowFlag_toNat (s.readReg x) (s.readReg y)) rfl
  refine ⟨neither, onlyX, onlyY, fun hx hy => (both hx hy).trans ?_⟩
  split_ifs <;> rfl

/-- Settles O37: `SUB` with its operands exchanged, and the other flag. -/
theorem subnWritesFlagThenDifference : Obligations.SubnWritesFlagThenDifference := by
  unfold Obligations.SubnWritesFlagThenDifference
  refine fun x y s => ⟨decodeWord_encode (.subnReg x y), _, rfl, advance_pc_toNat _, exec_frame (i := .subnReg x y) rfl, ?_⟩
  obtain ⟨neither, onlyX, onlyY, both⟩ := flagThenResult_binary (op := fun a b => b - a) (f := fun a b => (b + 256 - a) % 256)
    (fun a b => byte_sub_toNat b a) (subnFlag_toNat (s.readReg x) (s.readReg y)) rfl
  refine ⟨neither, onlyX, onlyY, fun hx hy => (both hx hy).trans ?_⟩
  split_ifs <;> rfl

/-- Settles O38; a flag shifted right is 0. -/
theorem shiftRightWritesLowBit : Obligations.ShiftRightWritesLowBit := by
  unfold Obligations.ShiftRightWritesLowBit
  refine fun x y s => ⟨decodeWord_encode (.shr x y), _, rfl, advance_pc_toNat _, exec_frame (i := .shr x y) rfl, ?_⟩
  obtain ⟨other, flag⟩ := flagThenResult_unary (op := (· >>> 1)) (f := (· / 2)) byte_shiftRight_toNat
    (shrFlag_toNat (s.readReg x)) rfl
  exact ⟨other, fun hx => (flag hx).trans (by omega)⟩

/-- Settles O39; a flag shifted left is twice the flag. -/
theorem shiftLeftWritesHighBit : Obligations.ShiftLeftWritesHighBit := by
  unfold Obligations.ShiftLeftWritesHighBit
  refine fun x y s => ⟨decodeWord_encode (.shl x y), _, rfl, advance_pc_toNat _, exec_frame (i := .shl x y) rfl, ?_⟩
  have hx := (s.readReg x).isLt
  obtain ⟨other, flag⟩ := flagThenResult_unary (op := (· <<< 1)) (f := (· * 2 % 256)) byte_shiftLeft_toNat
    (shlFlag_toNat (s.readReg x)) rfl
  exact ⟨other, fun hx => (flag hx).trans (by omega)⟩

/-! ### RND (R113) -/

/-- Settles O40; the count of draws stands in the row of `RND` alone. -/
theorem randomStoreMasksFreshByte : Obligations.RandomStoreMasksFreshByte := by
  unfold Obligations.RandomStoreMasksFreshByte
  refine fun x nn s => ⟨decodeWord_encode (.rnd x nn), _, _, rfl, rfl, fun b _ => ?_, rfl, advance_pc_toNat _,
    exec_frame (i := .rnd x nn) rfl, fun i u hi h => ?_⟩
  · rw [readReg_setRegNext, BitVec.getLsbD_and]
  · refine exec_frame h .draws fun hmem => ?_
    obtain ⟨x', nn', e⟩ := draws_mem_changedParts hmem
    exact hi x' nn' e

/-! ### The index register, the timers, the screen -/

/-- Settles O41: zero extension, then sums modulo 65536. -/
theorem indexRegisterWrites : Obligations.IndexRegisterWrites := by
  unfold Obligations.IndexRegisterWrites
  refine fun nnn x s => ⟨decodeWord_encode (.ldI nnn), decodeWord_encode (.addI x), decodeWord_encode (.ldF x),
    ⟨_, rfl, zext16_toNat nnn, advance_pc_toNat _, exec_frame (i := .ldI nnn) rfl⟩,
    ⟨_, rfl, ?_, advance_pc_toNat _, exec_frame (i := .addI x) rfl⟩,
    ⟨_, rfl, ?_, advance_pc_toNat _, exec_frame (i := .ldF x) rfl⟩, rfl⟩
  · rw [advance_i, setIndex_i, BitVec.toNat_add, regWord_toNat]
  · rw [advance_i, setIndex_i, State.glyphAddr, BitVec.toNat_add, BitVec.toNat_ofNat, Nat.add_mod_mod]
    rfl

/-- Settles O52: each copy by definition. -/
theorem timerLoadsCopy : Obligations.TimerLoadsCopy := by
  unfold Obligations.TimerLoadsCopy
  exact fun x s => ⟨decodeWord_encode (.ldVxDt x), decodeWord_encode (.ldDtVx x), decodeWord_encode (.ldStVx x),
    ⟨_, rfl, readReg_setRegNext s x _, advance_pc_toNat _, exec_frame (i := .ldVxDt x) rfl⟩,
    ⟨_, rfl, rfl, advance_pc_toNat _, exec_frame (i := .ldDtVx x) rfl⟩,
    ⟨_, rfl, rfl, advance_pc_toNat _, exec_frame (i := .ldStVx x) rfl⟩⟩

/-- Settles O47: a blank framebuffer. -/
theorem clearScreenClearsEveryPixel : Obligations.ClearScreenClearsEveryPixel := by
  unfold Obligations.ClearScreenClearsEveryPixel
  exact fun ign s => ⟨decodeWord_encode (.cls ign), _, rfl, pixel_blank, advance_pc_toNat _, exec_frame (i := .cls ign) rfl⟩

end Sys2Proof.Machine
end

section
/-! PROOFS. The block transfers (42_index_memory.md R123 to R125) and the fetch after a store (20_memory.md R53): O42 to O46. -/

namespace Sys2Proof.Machine

section
variable {x : Reg} {s t : State}

/-! ### What is read back after a store -/

theorem readByte_stored (hwf : s.mem.wf = true) {bs : List Byte} (hrange : s.i.toNat + bs.length ≤ memSize) {k : Nat}
    {b : Byte} (hb : bs[k]? = some b) : (s.storeBytes (s.indexAddr 0) bs).readByte (s.indexAddr k) = b := by
  have hk : k < bs.length := (List.getElem?_eq_some_iff.mp hb).1
  rw [readByte_storeBytes, State.indexAddr, State.indexAddr, Nat.add_zero, read_writeBytes hwf hrange, if_pos (by omega),
    Nat.add_sub_cancel_left, hb, Option.getD_some]

/-- The byte of each register of the block after `LD [I], Vx`. -/
theorem readByte_of_stRegs (hwf : s.mem.wf = true) (h : exec (.stRegs x) s = .next t) {r : Reg} (hr : r.toNat ≤ x.toNat) :
    t.readByte (s.indexAddr r.toNat) = s.readReg r := by
  obtain ⟨hrange, rfl⟩ := exec_stRegs_eq_next.mp h
  refine readByte_stored hwf (by rwa [regBlock_length]) ((regBlock_get s x hr).trans ?_)
  rw [BitVec.ofNat_toNat, BitVec.setWidth_eq]

theorem readByte_outside_of_stRegs (h : exec (.stRegs x) s = .next t) {a : Nat}
    (ha : a < s.i.toNat ∨ s.i.toNat + x.toNat < a) : t.readByte a = s.readByte a := by
  refine exec_frame h (.byte a) ?_
  simp only [changedParts, List.mem_cons, reduceCtorEq, mem_bytesFrom, State.indexAddr, false_or]
  omega

/-- The three digits after `LD B, Vx`. -/
theorem readByte_of_ldB (hwf : s.mem.wf = true) (h : exec (.ldB x) s = .next t) :
    (t.readByte (s.indexAddr 0)).toNat = (s.readReg x).toNat / 100 ∧
    (t.readByte (s.indexAddr 1)).toNat = (s.readReg x).toNat / 10 % 10 ∧
    (t.readByte (s.indexAddr 2)).toNat = (s.readReg x).toNat % 10 := by
  have hv := (s.readReg x).isLt
  obtain ⟨hrange, rfl⟩ := exec_ldB_eq_next.mp h
  have stored {k : Nat} {b : Byte} (hb : (decimalDigits (s.readReg x))[k]? = some b) :=
    readByte_stored (bs := decimalDigits (s.readReg x)) hwf hrange hb
  rw [readByte_advance, readByte_advance, readByte_advance, stored (k := 0) rfl, stored (k := 1) rfl, stored (k := 2) rfl]
  simp only [BitVec.toNat_ofNat]
  omega

theorem readByte_outside_of_ldB (h : exec (.ldB x) s = .next t) {a : Nat} (ha : a < s.i.toNat ∨ s.i.toNat + 2 < a) :
    t.readByte a = s.readByte a := by
  refine exec_frame h (.byte a) ?_
  simp only [changedParts, List.mem_cons, reduceCtorEq, mem_bytesFrom, State.indexAddr, false_or]
  omega

/-- The fault of an access that leaves the address space (R44). -/
theorem exec_out_of_range {i : Instr} {s : State} (h0 : 0 < accessLength i) (h : 4095 < s.i.toNat + accessLength i - 1) :
    exec i s = .fault (.outOfRangeAccess (if 4096 ≤ s.i.toNat then s.i else 4096#16)) :=
  exec_eq_fault_iff.mpr (.inr (.inr ⟨h0, h, rfl⟩))

end

/-- Settles O42: in range by the three digits, else by the range check. -/
theorem decimalDigitsAreStored : Obligations.DecimalDigitsAreStored := by
  unfold Obligations.DecimalDigitsAreStored
  refine fun x s hwf => ⟨decodeWord_encode (.ldB x), fun hrange => ?_, fun hrange => ?_⟩
  · have h := (exec_ldB_eq_next (x := x) (s := s)).mpr ⟨by simp only [memSize]; omega, rfl⟩
    obtain ⟨hundreds, tens, ones⟩ := readByte_of_ldB hwf h
    exact ⟨_, h, hundreds, tens, ones, advance_pc_toNat _, exec_frame h⟩
  · exact exec_out_of_range (i := .ldB x) (Nat.succ_pos _) hrange

/-- Settles O43: in range by the byte of each register, else by the range check. -/
theorem registersAreStored : Obligations.RegistersAreStored := by
  unfold Obligations.RegistersAreStored
  refine fun x s hwf => ⟨decodeWord_encode (.stRegs x), fun hrange => ?_, fun hrange => ?_⟩
  · have h := (exec_stRegs_eq_next (x := x) (s := s)).mpr ⟨by simp only [memSize]; omega, rfl⟩
    exact ⟨_, h, fun r hr => readByte_of_stRegs hwf h hr, advance_pc_toNat _, exec_frame h⟩
  · exact exec_out_of_range (i := .stRegs x) (Nat.succ_pos _) hrange

theorem readReg_of_ldRegs {x : Reg} {s t : State} (h : exec (.ldRegs x) s = .next t) {r : Reg} (hr : r.toNat ≤ x.toNat) :
    t.readReg r = s.readByte (s.indexAddr r.toNat) := by
  obtain ⟨-, rfl⟩ := exec_ldRegs_eq_next.mp h
  rw [readReg_advance, readReg_loadBlock s (by omega), if_pos (by omega)]

/-- Settles O44: in range by the register of each byte, else by the range check. -/
theorem registersAreLoaded : Obligations.RegistersAreLoaded := by
  unfold Obligations.RegistersAreLoaded
  refine fun x s => ⟨decodeWord_encode (.ldRegs x), fun hrange => ?_, fun hrange => ?_⟩
  · have h := (exec_ldRegs_eq_next (x := x) (s := s)).mpr ⟨by simp only [memSize]; omega, rfl⟩
    refine ⟨_, h, fun r hr => readReg_of_ldRegs h hr, ?_, exec_frame h⟩
    obtain ⟨v, hv⟩ := loadBlock_eq s (x.toNat + 1)
    rw [advance_pc_toNat, hv]
  · exact exec_out_of_range (i := .ldRegs x) (Nat.succ_pos _) hrange

/-! ### The fetch after a store -/

theorem fetchWord_of_bytes {t : State} (hpc : t.pc.toNat ≤ 4094) {hi lo : Byte} (hhi : t.readByte t.pc.toNat = hi)
    (hlo : t.readByte (t.pc.toNat + 1) = lo) : t.fetchWord = .ok (hi ++ lo) :=
  fetchWord_eq_ok.mpr ⟨hpc, by rw [hhi, hlo]⟩

theorem fetchWord_toNat_of_bytes {t : State} (hpc : t.pc.toNat ≤ 4094) {hi lo : Nat} (hhi : (t.readByte t.pc.toNat).toNat = hi)
    (hlo : (t.readByte (t.pc.toNat + 1)).toNat = lo) : ∃ w, t.fetchWord = .ok w ∧ w.toNat = hi * 256 + lo := by
  obtain ⟨w, hf, hw⟩ := fetchWord_of_le hpc
  exact ⟨w, hf, by rw [hw, hhi, hlo]⟩

/-- Settles O45: each byte of the next word is one that was stored or one outside the store. -/
theorem nextFetchSeesStore : Obligations.NextFetchSeesStore := by
  unfold Obligations.NextFetchSeesStore
  refine fun x s t hwf => ⟨fun h => ?_, fun h => ?_⟩
  · have hrange := (exec_stRegs_eq_next.mp h).1
    have stored : ∀ r : Reg, r.toNat ≤ x.toNat → t.readByte (s.i.toNat + r.toNat) = s.readReg r :=
      fun r hr => readByte_of_stRegs hwf h hr
    simp only [memSize] at hrange
    simp only [State.indexAddr, Nat.add_zero]
    refine ⟨fun hpc => ?_, fun r r' hr hr' hpc => ?_, fun hpc hle => ?_⟩
    · refine fetchWord_of_bytes (by omega) (readByte_outside_of_stRegs h (by omega)) ?_
      rw [hpc]
      exact stored 0#4 (Nat.zero_le _)
    · refine fetchWord_of_bytes (by omega) ?_ ?_
      · rw [hpc]
        exact stored r (by omega)
      · rw [hpc, Nat.add_assoc, hr]
        exact stored r' hr'
    · refine fetchWord_of_bytes hle ?_ (readByte_outside_of_stRegs h (by omega))
      rw [hpc]
      exact stored x le_rfl
  · have hrange := (exec_ldB_eq_next.mp h).1
    obtain ⟨hundreds, tens, ones⟩ := readByte_of_ldB hwf h
    simp only [memSize] at hrange
    simp only [State.indexAddr, Nat.add_zero] at hundreds tens ones ⊢
    refine ⟨fun hpc => ?_, fun hpc => ?_, fun hpc => ?_, fun hpc hle => ?_⟩
    · refine fetchWord_toNat_of_bytes (by omega) ?_ (by rw [hpc, hundreds])
      rw [readByte_outside_of_ldB h (by omega)]
    · exact fetchWord_toNat_of_bytes (by omega) (by rw [hpc, hundreds]) (by rw [hpc, tens])
    · exact fetchWord_toNat_of_bytes (by omega) (by rw [hpc, tens]) (by rw [hpc, Nat.add_assoc, ones])
    · refine fetchWord_toNat_of_bytes hle (by rw [hpc, ones]) ?_
      rw [readByte_outside_of_ldB h (by omega)]

/-- Settles O46: each register is read back from the byte it was stored in. -/
theorem storeThenLoadRestoresRegisters : Obligations.StoreThenLoadRestoresRegisters := by
  unfold Obligations.StoreThenLoadRestoresRegisters
  intro x s t u hwf h hmem hi
  have hindex : u.i = s.i := hi.trans (exec_frame h .index (by simp [changedParts, bytesFrom]))
  have hload := (exec_ldRegs_eq_next (x := x) (s := u)).mpr ⟨by rw [hindex]; exact (exec_stRegs_eq_next.mp h).1, rfl⟩
  refine ⟨_, hload, fun k hk => ?_⟩
  rw [readReg_of_ldRegs hload hk, readByte_congr hmem, State.indexAddr, hindex]
  exact readByte_of_stRegs hwf h hk

end Sys2Proof.Machine
end

section
/-! PROOFS. DRW (43_display.md R131 to R133): each pixel and the collision after a draw, and after the same draw again: O48, O49. -/

namespace Sys2Proof.Machine

/-- `p` is the pixel under the bit of `row` and `col` of a sprite whose corner is at `V[x]`, `V[y]`, each coordinate wrapped (R131). -/
def UnderBit (s : State) (x y : Reg) (row col : Nat) (p : Fin 2048) : Prop :=
  p.val = ((s.readReg y).toNat + row) % 32 * 64 + ((s.readReg x).toNat + col) % 64

theorem underBit_iff {s : State} {x y : Reg} {row col : Nat} {p : Fin 2048} : UnderBit s x y row col p ↔
    p = pixelIndex ((s.readReg x).toNat + col) ((s.readReg y).toNat + row) := by
  rw [UnderBit, Fin.ext_iff, pixelIndex_val]

section
variable {x y : Reg} {n : Nibble} {s t : State}

/-- A pixel under a sprite bit is XORed with it (R132). -/
theorem drw_pixel_under (h : exec (.drw x y n) s = .next t) {row col : Nat} {p : Fin 2048} (hrow : row < n.toNat)
    (hcol : col < 8) (hp : UnderBit s x y row col p) :
    t.fb.pixel p = (s.fb.pixel p ^^ (s.readByte (s.indexAddr row)).getLsbD (7 - col)) := by
  obtain ⟨-, rfl⟩ := exec_drw_eq_next.mp h
  have hn := n.isLt
  obtain ⟨drawn, -, -⟩ := drawRows_spec s (s.readReg x).toNat (s.readReg y).toNat (n := n.toNat) (by omega)
  exact drawn row hrow col hcol p (underBit_iff.mp hp)

/-- A pixel under no sprite bit stays. -/
theorem drw_pixel_outside (h : exec (.drw x y n) s = .next t) {p : Fin 2048}
    (hp : ∀ row col : Nat, row < n.toNat → col < 8 → ¬ UnderBit s x y row col p) : t.fb.pixel p = s.fb.pixel p := by
  obtain ⟨-, rfl⟩ := exec_drw_eq_next.mp h
  have hn := n.isLt
  obtain ⟨-, kept, -⟩ := drawRows_spec s (s.readReg x).toNat (s.readReg y).toNat (n := n.toNat) (by omega)
  exact kept p fun row hrow col hcol e => hp row col hrow hcol (underBit_iff.mpr e)

/-- `VF` is 1 where some set pixel met a sprite bit 1, and else 0 (R133). -/
theorem drw_flag (h : exec (.drw x y n) s = .next t) :
    (t.readReg vF = 1#8 ∧ ∃ (row col : Nat) (p : Fin 2048), row < n.toNat ∧ col < 8 ∧ UnderBit s x y row col p ∧
      s.fb.pixel p = true ∧ (s.readByte (s.indexAddr row)).getLsbD (7 - col) = true) ∨
    (t.readReg vF = 0#8 ∧ ∀ (row col : Nat) (p : Fin 2048), row < n.toNat → col < 8 → UnderBit s x y row col p →
      (s.fb.pixel p && (s.readByte (s.indexAddr row)).getLsbD (7 - col)) = false) := by
  obtain ⟨-, rfl⟩ := exec_drw_eq_next.mp h
  have hn := n.isLt
  obtain ⟨-, -, hit⟩ := drawRows_spec s (s.readReg x).toNat (s.readReg y).toNat (n := n.toNat) (by omega)
  rw [readReg_advance, readReg_writeFlag, if_pos rfl]
  cases hc : (drawRows s (s.readReg x).toNat (s.readReg y).toNat n.toNat).collided with
  | true =>
    obtain ⟨row, hrow, col, hcol, hpixel, hbit⟩ := hit.mp hc
    exact .inl ⟨rfl, row, col, _, hrow, hcol, underBit_iff.mpr rfl, hpixel, hbit⟩
  | false =>
    refine .inr ⟨rfl, fun row col p hrow hcol hp => ?_⟩
    rw [← Bool.not_eq_true, Bool.and_eq_true]
    rintro ⟨hpixel, hbit⟩
    rw [underBit_iff.mp hp] at hpixel
    exact absurd (hit.mpr ⟨row, hrow, col, hcol, hpixel, hbit⟩) (ne_true_of_eq_false hc)

/-- `VF` after a draw, as one test. -/
theorem drw_flag_eq_one_iff (h : exec (.drw x y n) s = .next t) : t.readReg vF = 1#8 ↔
    ∃ (row col : Nat) (p : Fin 2048), row < n.toNat ∧ col < 8 ∧ UnderBit s x y row col p ∧
      s.fb.pixel p = true ∧ (s.readByte (s.indexAddr row)).getLsbD (7 - col) = true := by
  rcases drw_flag h with ⟨hflag, hit⟩ | ⟨hflag, hmiss⟩
  · exact iff_of_true hflag hit
  · refine iff_of_false (by rw [hflag]; decide) ?_
    rintro ⟨row, col, p, hrow, hcol, hp, hpixel, hbit⟩
    have := hmiss row col p hrow hcol hp
    rw [hpixel, hbit] at this
    cases this

end

/-- Settles O48: pixels and flag by the lemmas above, out of range by the range check. -/
theorem drawXorsSpriteAndReportsCollision : Obligations.DrawXorsSpriteAndReportsCollision := by
  unfold Obligations.DrawXorsSpriteAndReportsCollision
  refine fun x y n s => ⟨decodeWord_encode (.drw x y n), fun hrange => ?_, fun h0 hrange => ?_⟩
  · have h := (exec_drw_eq_next (x := x) (y := y) (n := n) (s := s)).mpr ⟨by simp only [memSize]; omega, rfl⟩
    exact ⟨_, h, fun row col p hrow hcol hp => drw_pixel_under h hrow hcol hp, fun p hp => drw_pixel_outside h hp,
      drw_flag h, advance_pc_toNat _, exec_frame h⟩
  · exact exec_out_of_range (i := .drw x y n) (Nat.pos_of_ne_zero h0) hrange

/-- Settles O49: a pixel under a bit is XORed twice with it, and a clear pixel that met a bit 1 is set when they meet again. -/
theorem drawingTwiceRestoresPicture : Obligations.DrawingTwiceRestoresPicture := by
  unfold Obligations.DrawingTwiceRestoresPicture
  intro x y n s t u v h hfb hmem hi hx hy h'
  have hunder : ∀ row col p, UnderBit u x y row col p ↔ UnderBit s x y row col p := by
    intro row col p
    rw [UnderBit, UnderBit, hx, hy]
  have hsprite : ∀ row, u.readByte (u.indexAddr row) = s.readByte (s.indexAddr row) := by
    intro row
    rw [readByte_congr hmem, State.indexAddr, State.indexAddr, hi]
  constructor
  · refine framebuffer_ext fun p => ?_
    by_cases hp : ∃ row col, row < n.toNat ∧ col < 8 ∧ UnderBit s x y row col p
    · obtain ⟨row, col, hrow, hcol, hp⟩ := hp
      rw [drw_pixel_under h' hrow hcol ((hunder row col p).mpr hp), hfb, drw_pixel_under h hrow hcol hp, hsprite,
        Bool.xor_assoc, Bool.xor_self, Bool.xor_false]
    · have outside : ∀ row col : Nat, row < n.toNat → col < 8 → ¬ UnderBit s x y row col p :=
        fun row col hrow hcol e => hp ⟨row, col, hrow, hcol, e⟩
      rw [drw_pixel_outside h' fun row col hrow hcol e => outside row col hrow hcol ((hunder row col p).mp e), hfb,
        drw_pixel_outside h outside]
  · rw [drw_flag_eq_one_iff h']
    refine exists_congr fun row => exists_congr fun col => exists_congr fun p => ?_
    rw [hunder, hsprite, hfb]
    refine and_congr_right fun hrow => and_congr_right fun hcol => and_congr_right fun hp => ?_
    rw [drw_pixel_under h hrow hcol hp]
    refine and_congr_left fun hbit => ?_
    rw [hbit, Bool.xor_true, Bool.not_eq_true']

end Sys2Proof.Machine
end
